-- ==== Sys2Proof/Word.lean ====
section
/-! DEFINITION. The one word of the core (00_scope.md rules R5, R8, R9): an unsigned byte. `+`, `-` and `*` on it are
the spec's `+8`, `-8` and `*8`: they wrap modulo 256. -/

namespace Sys2Proof

/-- A byte: register, memory cell, address, operand and immediate are all 8 bits wide (R5). -/
abbrev Byte := BitVec 8

/-- A legal register index, R0 to R7 (R21). -/
abbrev RegIdx := Fin 8

end Sys2Proof
end

