-- ==== Sys2Proof/Config.lean ====
section
/-! DEFINITION. What the spec leaves as a parameter (00_scope.md rule R6) and the host's two free values
(92_eei_decisions.md D19). The parameters' defaults stand in Machine/Defaults.lean. -/

namespace Sys2Proof

/-- The parameter `opcodeMap` (R6, R84, R86): the opcode byte of each of the ten operations. -/
structure OpcodeMap where
  ldi  : Byte
  add  : Byte
  mul  : Byte
  prn  : Byte
  push : Byte
  pop  : Byte
  call : Byte
  ret  : Byte
  cmp  : Byte
  hlt  : Byte
deriving DecidableEq, Repr

/-- The core's open parameters, fixed for one machine (R6). -/
structure Config where
  /-- Whether CMP clears the three flags before setting one (R134, D4). -/
  cmpClearsFlags : Bool
  /-- The opcode bytes (R84, D1). -/
  opcodeMap : OpcodeMap
deriving DecidableEq, Repr

/-- FREE VALUE (D19, log entry 15): the text of the host's diagnostic for a fault record given as cause code, pc,
opcode and info. The spec leaves it open; nothing of the core depends on it. -/
opaque Config.hostDiagnostic : Nat → Byte → Byte → Byte → String

/-- FREE VALUE (D19, log entry 15): one less than the host's exit code after a fault, which is any value but 0. -/
opaque Config.faultExitCode : Nat → Byte → Byte → Byte → Nat

end Sys2Proof
end

