-- ==== Sys2Proof/Machine/Defaults.lean ====
section
/-! DEFINITION. The defaults of the parameters of R6: the spec's own choices D1 and D4 (log entries 4 and 5). -/

namespace Sys2Proof.Machine

/-- The historical opcode bytes of R84. UNVERIFIED: the spec adopts them by decision D1 from general knowledge. Unsafe
(log entry 4): under other bytes the same program does something else. -/
def historicalMap : OpcodeMap :=
  { ldi := 0x82, add := 0xA0, mul := 0xA2, prn := 0x47, push := 0x45, pop := 0x46, call := 0x50, ret := 0x11,
    cmp := 0xA7, hlt := 0x01 }

/-- CMP clears the flags first by default. UNVERIFIED: decision D4, the source's recommended contract. Unsafe (log
entry 5): the flag fields differ on a machine that does not clear. -/
def defaultCmpClearsFlags : Bool := true

/-- The parameters of a core right after reset when nothing else is chosen (R6). -/
def defaultConfig : Config :=
  { cmpClearsFlags := defaultCmpClearsFlags, opcodeMap := historicalMap }

end Sys2Proof.Machine
end

