-- ==== Sys2Proof/Machine/State.lean ====
section
/-! DEFINITION. The architectural state (10_state.md rules R20 to R36), the reasons a step can stop, and the state after
reset (R35, R260). Plain data throughout. -/

namespace Sys2Proof.Machine

/-- The three condition flags, independent booleans with no packing (R26, R27). -/
structure Flags where
  E : Bool
  L : Bool
  G : Bool
deriving DecidableEq, Repr

/-- The two fault causes (R221). -/
inductive FaultCause where
  | illegalOpcode
  | illegalRegister
deriving DecidableEq, Repr

/-- What a faulted core reports (R33). -/
structure FaultRecord where
  cause  : FaultCause
  /-- The address at which the faulting opcode was fetched. -/
  pc     : Byte
  /-- The fetched opcode byte. -/
  opcode : Byte
  /-- IllegalRegister: the offending operand byte. IllegalOpcode: the opcode byte. -/
  info   : Byte
deriving DecidableEq, Repr

/-- The Execution Engine's run state (R32). -/
inductive RunState where
  /-- After `init()`, before `load` completes: the core takes no step (R35, R260). DEDUCED, safe (log entry 1). -/
  | awaitingLoad
  /-- The next step executes the instruction at `pc`. -/
  | running
  /-- Terminal, entered by HLT (R210). -/
  | halted
  /-- Terminal, entered by a fatal condition (R220). -/
  | faulted (record : FaultRecord)
deriving DecidableEq, Repr

/-- The memory array (R30) as address and byte pairs, in the canonical form `Memory.wf` of Machine/Ops.lean: addresses
strictly rising and below 256, no entry equal to what an unlisted address reads as. -/
abbrev Memory := List Host.Cell

/-- The bytes one instruction is fetched with (R34, R110): the instruction register and the two operand latches. They
live for one instruction and are not state between instructions. -/
structure Fetched where
  op  : Byte
  opA : Byte
  opB : Byte
deriving DecidableEq, Repr

/-- The state tuple of R20, and the machine's parameters of R6 (log entry 3), which nothing changes. -/
structure State where
  /-- The memory array: code, data and stack (R30, R50). -/
  mem : Memory
  /-- The register file R0 to R7; `x[7]` is the stack pointer (R21, R22). -/
  x   : Vector Byte 8
  /-- The program counter (R25). -/
  pc  : Byte
  /-- The condition flags (R26). -/
  fl  : Flags
  /-- The run state, with the fault record (R32, R33). -/
  run : RunState
  /-- The bytes PRN has emitted, oldest first (R31). -/
  out : List Byte
  /-- The model's own field: the parameters of this machine (R6). -/
  cfg : Config
deriving DecidableEq, Repr

/-- Why a step stops with no next state: the core has stopped (R118). No instruction's meaning answers a fault. -/
inductive Fault where
  /-- Raised by `step` in a Halted core: Halted is terminal, there is no step (R118). Safe: the hardware does not go on. -/
  | coreHalted
  /-- Raised by `step` in a Faulted core: Faulted is terminal, there is no step (R118). Safe, as above. -/
  | coreFaulted (record : FaultRecord)
deriving DecidableEq, Repr

/-- Why a transaction is refused. No instruction's meaning answers a refusal. -/
inductive Refusal where
  /-- An instruction with no meaning yet, by its mnemonic; none is left. Safe: nothing is said about it. -/
  | notModelled (mnemonic : String)
  /-- Raised by `step` between `init()` and `load` (R260, 93_implementation_defined.md U9). Safe. -/
  | stepBeforeLoad
  /-- Raised by `load` anywhere but once after `init()` and before the first step (R58). Safe. -/
  | loadNotLegal
  /-- Raised by `load` for more than 256 bytes (R58, D9). Safe. -/
  | programTooLong
deriving DecidableEq, Repr

/-- The state after `init()` and before `load` (R35, R260), with the default parameters. -/
def State.reset : State where
  mem := []
  x   := #v[0x00, 0x00, 0x00, 0x00, 0x00, 0x00, 0x00, 0xF4]
  pc  := 0x00
  fl  := { E := false, L := false, G := false }
  run := .awaitingLoad
  out := []
  cfg := defaultConfig

end Sys2Proof.Machine
end

