-- ==== Sys2Proof/Machine/Flags.lean ====
section
/-! DEFINITION. The one flag computation of the core, CMP's (41_alu.md rule R134). ADD and MUL write no flag (R26). -/

namespace Sys2Proof.Machine

/-- All three flags false. -/
def Flags.cleared : Flags := { E := false, L := false, G := false }

/-- The flags after comparing `a` with `b` as unsigned bytes (R134): cleared first if `clears`, then one of the three
set. Without the clearing, a flag set earlier stays set. -/
def compareFlags (clears : Bool) (a b : Byte) (f : Flags) : Flags :=
  let f0 := if clears then Flags.cleared else f
  let f1 := if a = b then { f0 with E := true } else f0
  let f2 := if a.toNat < b.toNat then { f1 with L := true } else f1
  if b.toNat < a.toNat then { f2 with G := true } else f2

end Sys2Proof.Machine
end

