-- ==== Sys2Proof/Syntax.lean ====
section
/-! DEFINITION. The ten instructions (30_encoding.md rules R82, R84), with their operand bytes as fetched. A register
operand is a WHOLE byte (R24, R83): an index above 7 is part of the syntax and raises IllegalRegister when it runs. -/

namespace Sys2Proof

/-- One constructor per row of spec/opcode_table.json, in the table's order. -/
inductive Instr where
  /-- LDI Ra, imm8 (R150). -/
  | ldi (rA imm8 : Byte)
  /-- ADD Ra, Rb (R130). -/
  | add (rA rB : Byte)
  /-- MUL Ra, Rb (R132). -/
  | mul (rA rB : Byte)
  /-- PRN Ra (R160). -/
  | prn (rA : Byte)
  /-- PUSH Ra (R170). -/
  | push (rA : Byte)
  /-- POP Ra (R175). -/
  | pop (rA : Byte)
  /-- CALL Ra (R190). -/
  | call (rA : Byte)
  /-- RET (R195). -/
  | ret
  /-- CMP Ra, Rb (R134). -/
  | cmp (rA rB : Byte)
  /-- HLT (R210). -/
  | hlt
deriving DecidableEq, Repr

end Sys2Proof
end

