-- ==== Sys2Proof/WellFormed.lean ====
section
/-! DEFINITION. The static checks: which operand bytes are register indices and that they are legal (R82, R83, R112),
and the conditions on an opcode map (R86). -/

namespace Sys2Proof

/-- The operand bytes an instruction uses as register indices, in the order they are checked (R112). -/
def Instr.regOperands : Instr → List Byte
  | .ldi rA _ => [rA]
  | .add rA rB => [rA, rB]
  | .mul rA rB => [rA, rB]
  | .prn rA => [rA]
  | .push rA => [rA]
  | .pop rA => [rA]
  | .call rA => [rA]
  | .ret => []
  | .cmp rA rB => [rA, rB]
  | .hlt => []

/-- A register index byte is legal from 0x00 to 0x07 (R83). -/
def isRegIndex (b : Byte) : Bool := decide (b.toNat < 8)

/-- Every register index byte of the instruction is legal (R83). -/
def Instr.wf (i : Instr) : Bool := i.regOperands.all isRegIndex

/-- The ten bytes of a map, in the table's order (R84). -/
def OpcodeMap.bytes (m : OpcodeMap) : List Byte :=
  [m.ldi, m.add, m.mul, m.prn, m.push, m.pop, m.call, m.ret, m.cmp, m.hlt]

/-- The bytes of the operations that check a register operand, the eight of R223. -/
def OpcodeMap.regBytes (m : OpcodeMap) : List Byte :=
  [m.ldi, m.add, m.mul, m.prn, m.push, m.pop, m.call, m.cmp]

/-- The bytes of the ALU operations, which are those of format RR (R82, R90). -/
def OpcodeMap.aluBytes (m : OpcodeMap) : List Byte := [m.add, m.mul, m.cmp]

/-- Bits 7-6 of each byte equal the operand count of its operation (R86, second condition). Since no operation has
count 3, the fourth condition (no byte with bits 7-6 = 0b11) is part of this one. -/
def OpcodeMap.countsAgree (m : OpcodeMap) : Bool :=
  [m.ldi, m.add, m.mul, m.cmp].all (fun b => b.extractLsb' 6 2 == 2#2) &&
  [m.prn, m.push, m.pop, m.call].all (fun b => b.extractLsb' 6 2 == 1#2) &&
  [m.ret, m.hlt].all (fun b => b.extractLsb' 6 2 == 0#2)

/-- Bit 5 is 1 exactly for ADD, MUL and CMP (R86, third condition). -/
def OpcodeMap.aluBitAgrees (m : OpcodeMap) : Bool :=
  [m.add, m.mul, m.cmp].all (fun b => b.getLsbD 5) &&
  [m.ldi, m.prn, m.push, m.pop, m.call, m.ret, m.hlt].all (fun b => !b.getLsbD 5)

/-- The conditions of R86 on an opcode map. -/
def OpcodeMap.wf (m : OpcodeMap) : Bool :=
  decide m.bytes.Nodup && m.countsAgree && m.aluBitAgrees

end Sys2Proof
end

