-- ==== Sys2Proof/Decode.lean ====
section
/-! DEFINITION. Decoding (30_encoding.md rules R80 to R89), the encoder, and the opcode table's words. -/

namespace Sys2Proof

/-- Why bytes decode to nothing. -/
inductive DecodeError where
  /-- The opcode byte is none of the map's ten (R88): the core raises IllegalOpcode. -/
  | unrecognizedOpcode (op : Byte)
  /-- A byte list (not the fetch, which always has three bytes) that ends before the operands the opcode counts. -/
  | truncated (op : Byte)
  /-- An empty byte list. -/
  | noBytes
deriving DecidableEq, Repr

/-- The operand count in the opcode byte's top two bits, `op[7:6]` (R80). -/
def operandCount (op : Byte) : Nat := (op.extractLsb' 6 2).toNat

/-- The instruction of a fetched opcode byte and its two candidate operand bytes (R85, R111): the WHOLE opcode byte is
matched, bits 5 and 4 are never consulted alone, and operand bytes outside the format are ignored (R82). -/
def decodeFetched (m : OpcodeMap) (op opA opB : Byte) : Except DecodeError Instr :=
  if op = m.ldi then .ok (.ldi opA opB)
  else if op = m.add then .ok (.add opA opB)
  else if op = m.mul then .ok (.mul opA opB)
  else if op = m.prn then .ok (.prn opA)
  else if op = m.push then .ok (.push opA)
  else if op = m.pop then .ok (.pop opA)
  else if op = m.call then .ok (.call opA)
  else if op = m.ret then .ok .ret
  else if op = m.cmp then .ok (.cmp opA opB)
  else if op = m.hlt then .ok .hlt
  else .error (.unrecognizedOpcode op)

/-- The first instruction of a byte list, and the bytes after it (R54, R80): the length comes from the first byte
alone. -/
def decode (m : OpcodeMap) : List Byte → Except DecodeError (Instr × List Byte)
  | [] => .error .noBytes
  | op :: rest =>
    match decodeFetched m op (rest.getD 0 0) (rest.getD 1 0) with
    | .error e => .error e
    | .ok i => if operandCount op ≤ rest.length then .ok (i, rest.drop (operandCount op)) else .error (.truncated op)

/-- The opcode byte of an instruction (R84). -/
def opcodeOf (m : OpcodeMap) : Instr → Byte
  | .ldi _ _ => m.ldi
  | .add _ _ => m.add
  | .mul _ _ => m.mul
  | .prn _ => m.prn
  | .push _ => m.push
  | .pop _ => m.pop
  | .call _ => m.call
  | .ret => m.ret
  | .cmp _ _ => m.cmp
  | .hlt => m.hlt

/-- The operand bytes of an instruction, in increasing address order (R82). -/
def operandBytes : Instr → List Byte
  | .ldi rA imm8 => [rA, imm8]
  | .add rA rB => [rA, rB]
  | .mul rA rB => [rA, rB]
  | .prn rA => [rA]
  | .push rA => [rA]
  | .pop rA => [rA]
  | .call rA => [rA]
  | .ret => []
  | .cmp rA rB => [rA, rB]
  | .hlt => []

/-- The bytes of an instruction: the opcode byte, then its operand bytes (R80, R82). -/
def encode (m : OpcodeMap) (i : Instr) : List Byte := opcodeOf m i :: operandBytes i

/-- Byte `k` of an instruction whose bits are `w`, of which the table gives the low `nbits` and all above are 0. Byte 0
is bits 7..0, byte 1 is bits 15..8, byte 2 is bits 23..16: increasing addresses (R54). -/
def tableByte (nbits w k : Nat) : Byte := BitVec.ofNat 8 ((w % 2 ^ nbits) / 2 ^ (8 * k))

/-- The instruction the decoder reads from a table word, under the default opcode map. -/
def decodeTableWord (nbits w : Nat) : Option Instr :=
  match decodeFetched Machine.historicalMap (tableByte nbits w 0) (tableByte nbits w 1) (tableByte nbits w 2) with
  | .ok i => some i
  | .error _ => none

end Sys2Proof
end

