-- ==== Sys2Proof/Machine/Ops.lean ====
section
/-! DEFINITION. The named operations over memory and registers: the pseudocode primitives of 00_scope.md rule R10, the
fetch (R110), the default advance (R114), and fault entry (R220) with `init()` (R260), the only way out, beside it. -/

namespace Sys2Proof.Machine

/-- What a cell that is not listed reads as: 0x00, the value `init()` gives every cell (R35). -/
def unlistedByte : Byte := 0x00

/-- The byte in a cell (R51). -/
def Memory.read : Memory → Nat → Byte
  | [], _ => unlistedByte
  | (k, v) :: rest, a => if k = a then v else Memory.read rest a

/-- Put a cell in front, unless it holds what an unlisted cell reads as. -/
def Memory.cons (a : Nat) (v : Byte) (rest : Memory) : Memory :=
  if v = unlistedByte then rest else (a, v) :: rest

/-- Store a byte in a cell, keeping the canonical form (R52). -/
def Memory.write : Memory → Nat → Byte → Memory
  | [], a, v => Memory.cons a v []
  | (k, w) :: rest, a, v =>
    if a < k then Memory.cons a v ((k, w) :: rest)
    else if a = k then Memory.cons a v rest
    else (k, w) :: Memory.write rest a v

/-- The canonical form: strictly rising addresses below 256, no entry that an unlisted address would read as. -/
def Memory.wf (m : Memory) : Bool :=
  decide (m.Pairwise (fun p q => p.1 < q.1)) && m.all (fun p => decide (p.1 < 256) && p.2 != unlistedByte)

/-- Write bytes at consecutive cells from `a` up, in order (R57). -/
def Memory.writeFrom : Memory → Nat → List Byte → Memory
  | m, _, [] => m
  | m, a, b :: bs => Memory.writeFrom (Memory.write m a b) (a + 1) bs

/-- `MemRead(a, 1)` (R51). Every byte is an address that exists; a read never faults. -/
def State.memRead (s : State) (a : Byte) : Byte := Memory.read s.mem a.toNat

/-- `MemWrite(a, 1, v)` (R52). -/
def State.memWrite (s : State) (a v : Byte) : State := { s with mem := Memory.write s.mem a.toNat v }

/-- `x[r]` (R21). No register is hardwired. -/
def State.readReg (s : State) (r : RegIdx) : Byte := s.x.get r

/-- `x[r] <- v` (R21). -/
def State.writeReg (s : State) (r : RegIdx) (v : Byte) : State := { s with x := s.x.set r.val v r.isLt }

/-- The register that is the stack pointer (R22). -/
def spReg : RegIdx := 7

/-- The stack pointer, which is `x[7]` (R22). -/
def State.sp (s : State) : Byte := s.readReg spReg

/-- `pc <- t` (R25). -/
def State.setPc (s : State) (t : Byte) : State := { s with pc := t }

/-- Write the three flags (R26). -/
def State.setFlags (s : State) (f : Flags) : State := { s with fl := f }

/-- `run <- r` (R32). -/
def State.setRun (s : State) (r : RunState) : State := { s with run := r }

/-- `emit(v)`: append a byte to the output trace (R31). -/
def State.emit (s : State) (v : Byte) : State := { s with out := s.out ++ [v] }

/-- The default advance for opcode byte `op`: `pc <- pc +8 (op[7:6] + 1)` (R114). The addition wraps (D5). -/
def State.advance (s : State) (op : Byte) : State := s.setPc (s.pc + BitVec.ofNat 8 (operandCount op + 1))

/-- Fetch (R110): the opcode byte and both candidate operand bytes, whatever the opcode's operand count. The addresses
wrap (R66). -/
def State.fetch (s : State) : Fetched :=
  { op := s.memRead s.pc, opA := s.memRead (s.pc + 1), opB := s.memRead (s.pc + 2) }

/-- FAULT ENTRY (R220): the state before the step, with `run` Faulted and the record of R33. `pc` stays at the faulting
opcode, and nothing else changes. There is no return from it (R227); `State.init` starts a new run. -/
def State.raise (s : State) (cause : FaultCause) (op info : Byte) : State :=
  s.setRun (.faulted { cause := cause, pc := s.pc, opcode := op, info := info })

/-- The numeric code of a fault cause (R221, D17). -/
def FaultCause.code : FaultCause → Nat
  | .illegalOpcode => 1
  | .illegalRegister => 2

/-- `init()` (R260): every piece of state at its value of R35, whatever the run state. Legal at any time, and the only
way out of Halted and Faulted. The parameters of the machine stay. -/
def State.init (s : State) : State := { State.reset with cfg := s.cfg }

/-- Place the first three bytes of a table word where the next instruction is fetched. -/
def State.placeWord (s : State) (nbits w : Nat) : State :=
  ((s.memWrite s.pc (tableByte nbits w 0)).memWrite (s.pc + 1) (tableByte nbits w 1)).memWrite
    (s.pc + 2) (tableByte nbits w 2)

end Sys2Proof.Machine
end

