-- ==== Sys2Proof/Machine/Operands.lean ====
section
/-! DEFINITION. The operand forms (R82) and the operand check (R112): R is one register byte, RR two, RI a register byte
and an immediate that is never checked (R87), Z none. -/

namespace Sys2Proof.Machine

/-- `checkReg(b)` (R10): the index a register byte names, if it is at most 7. Nothing is masked off (R83). -/
def checkReg (b : Byte) : Option RegIdx := if h : b.toNat < 8 then some ⟨b.toNat, h⟩ else none

/-- Check a register byte of the instruction with opcode byte `op`, and go on with its index. An index above 7 takes the
IllegalRegister fault before anything is written (R112, R223; decision D3). -/
def withReg (op b : Byte) (s : State) (k : RegIdx → Host.Outcome State Fault Refusal) :
    Host.Outcome State Fault Refusal :=
  match checkReg b with
  | some r => k r
  | none => .next (s.raise .illegalRegister op b)

/-- The two checks of format RR, opA first (R112, R225). -/
def withRegs (op a b : Byte) (s : State) (k : RegIdx → RegIdx → Host.Outcome State Fault Refusal) :
    Host.Outcome State Fault Refusal :=
  withReg op a s fun rA => withReg op b s fun rB => k rA rB

end Sys2Proof.Machine
end

