-- ==== Sys2Proof/Machine/Alu.lean ====
section
/-! DEFINITION. ADD, MUL and CMP (41_alu.md). The ALU has these three operations and no other (R90); it touches no memory
and no PC, and writes no register but x[rA] (R137). -/

namespace Sys2Proof.Machine

/-- Add: `(x + y) mod 256` (R136). -/
def aluAdd (a b : Byte) : Byte := a + b

/-- Multiply: the low 8 bits of the product (R136). -/
def aluMul (a b : Byte) : Byte := a * b

/-- ADD Ra, Rb (R130). -/
def execAdd (rA rB : Byte) (s : State) : Host.Outcome State Fault Refusal :=
  let op := s.cfg.opcodeMap.add
  withRegs op rA rB s fun a b => .next ((s.writeReg a (aluAdd (s.readReg a) (s.readReg b))).advance op)

/-- MUL Ra, Rb (R132). -/
def execMul (rA rB : Byte) (s : State) : Host.Outcome State Fault Refusal :=
  let op := s.cfg.opcodeMap.mul
  withRegs op rA rB s fun a b => .next ((s.writeReg a (aluMul (s.readReg a) (s.readReg b))).advance op)

/-- CMP Ra, Rb (R134), under the machine's `cmpClearsFlags` (R6). -/
def execCmp (rA rB : Byte) (s : State) : Host.Outcome State Fault Refusal :=
  let op := s.cfg.opcodeMap.cmp
  withRegs op rA rB s fun a b =>
    .next ((s.setFlags (compareFlags s.cfg.cmpClearsFlags (s.readReg a) (s.readReg b) s.fl)).advance op)

end Sys2Proof.Machine
end

