-- ==== Sys2Proof/Machine/Stack.lean ====
section
/-! DEFINITION. PUSH and POP (44_stack.md), and the stack pointer's two moves, which CALL and RET share. The stack is full
and descending; SP wraps modulo 256 and no overflow or underflow is detected (R60, D5). -/

namespace Sys2Proof.Machine

/-- `x[7] <- x[7] -8 1`. -/
def State.spDown (s : State) : State := s.writeReg spReg (s.sp - 1)

/-- `x[7] <- x[7] +8 1`. -/
def State.spUp (s : State) : State := s.writeReg spReg (s.sp + 1)

/-- PUSH Ra (R170). The register is read after the decrement, so PUSH R7 stores the new SP (D16, log entry 8). -/
def execPush (rA : Byte) (s : State) : Host.Outcome State Fault Refusal :=
  let op := s.cfg.opcodeMap.push
  withReg op rA s fun a =>
    let s1 := s.spDown
    .next ((s1.memWrite s1.sp (s1.readReg a)).advance op)

/-- POP Ra (R175). The increment reads x[7] after the register is written, so POP R7 leaves the popped byte plus one
(D16, log entry 8). -/
def execPop (rA : Byte) (s : State) : Host.Outcome State Fault Refusal :=
  let op := s.cfg.opcodeMap.pop
  withReg op rA s fun a => .next ((s.writeReg a (s.memRead s.sp)).spUp.advance op)

end Sys2Proof.Machine
end

