-- ==== Sys2Proof/Machine/CallReturn.lean ====
section
/-! DEFINITION. CALL and RET (45_call_return.md). Both set the PC themselves; neither takes the default advance (R114). -/

namespace Sys2Proof.Machine

/-- CALL Ra (R190): pushes `pc +8 2` and goes to x[rA], read after the decrement (D16, log entry 8). -/
def execCall (rA : Byte) (s : State) : Host.Outcome State Fault Refusal :=
  withReg s.cfg.opcodeMap.call rA s fun a =>
    let ret := s.pc + 2
    let s1 := s.spDown
    let s2 := s1.memWrite s1.sp ret
    .next (s2.setPc (s2.readReg a))

/-- RET (R195): pops the byte at SP into the PC. -/
def execRet (s : State) : Host.Outcome State Fault Refusal :=
  let t := s.memRead s.sp
  .next (s.spUp.setPc t)

end Sys2Proof.Machine
end

