-- ==== Sys2Proof/Machine/Halt.lean ====
section
/-! DEFINITION. HLT (46_halt.md). -/

namespace Sys2Proof.Machine

/-- HLT (R210): Halted, and the PC still moves past the halt byte (R114). -/
def execHlt (s : State) : Host.Outcome State Fault Refusal :=
  .next ((s.setRun .halted).advance s.cfg.opcodeMap.hlt)

end Sys2Proof.Machine
end

