-- ==== Sys2Proof/Machine/LoadImmediate.lean ====
section
/-! DEFINITION. LDI (42_load_immediate.md). -/

namespace Sys2Proof.Machine

/-- LDI Ra, imm8 (R150): the immediate as is, every value legal (R87). -/
def execLdi (rA imm8 : Byte) (s : State) : Host.Outcome State Fault Refusal :=
  let op := s.cfg.opcodeMap.ldi
  withReg op rA s fun a => .next ((s.writeReg a imm8).advance op)

end Sys2Proof.Machine
end

