-- ==== Sys2Proof/Machine/Print.lean ====
section
/-! DEFINITION. PRN (43_print.md). -/

namespace Sys2Proof.Machine

/-- PRN Ra (R160): the byte goes to the output trace; the host renders it (D7). -/
def execPrn (rA : Byte) (s : State) : Host.Outcome State Fault Refusal :=
  let op := s.cfg.opcodeMap.prn
  withReg op rA s fun a => .next ((s.emit (s.readReg a)).advance op)

end Sys2Proof.Machine
end

