-- ==== Sys2Proof/Machine/Dispatch.lean ====
section
/-! DEFINITION. The execute stage (R113): one arm per instruction, in the table's order. -/

namespace Sys2Proof.Machine

/-- The effect of an instruction, the operand check of R112 and the default advance of R114 included. The run state is
`step`'s to check (R117; log entry 11). -/
def exec (i : Instr) (s : State) : Host.Outcome State Fault Refusal :=
  match i with
  | .ldi rA imm8 => Sys2Proof.Machine.execLdi rA imm8 s
  | .add rA rB => Sys2Proof.Machine.execAdd rA rB s
  | .mul rA rB => Sys2Proof.Machine.execMul rA rB s
  | .prn rA => Sys2Proof.Machine.execPrn rA s
  | .push rA => Sys2Proof.Machine.execPush rA s
  | .pop rA => Sys2Proof.Machine.execPop rA s
  | .call rA => Sys2Proof.Machine.execCall rA s
  | .ret => Sys2Proof.Machine.execRet s
  | .cmp rA rB => Sys2Proof.Machine.execCmp rA rB s
  | .hlt => Sys2Proof.Machine.execHlt s

end Sys2Proof.Machine
end

