-- ==== Sys2Proof/Machine/Step.lean ====
section
/-! DEFINITION. The step function (40_execution_cycle.md rules R117, R118). -/

namespace Sys2Proof.Machine

/-- Fetch, decode, check, execute and advance (R117). An unrecognized opcode takes the IllegalOpcode fault (R222), which
is a next state. A core that is not Running has no step (R118, R260). -/
def step (s : State) : Host.Outcome State Fault Refusal :=
  match s.run with
  | .running =>
    match decodeFetched s.cfg.opcodeMap s.fetch.op s.fetch.opA s.fetch.opB with
    | .ok i => exec i s
    | .error _ => .next (s.raise .illegalOpcode s.fetch.op s.fetch.op)
  | .awaitingLoad => .refused .stepBeforeLoad
  | .halted => .fault .coreHalted
  | .faulted r => .fault (.coreFaulted r)

/-- The state with a table word placed where `step` fetches next, and Running, so that the next step runs exactly it.
It stands for the host's `load` (log entry 2). -/
def State.withFetchWord (s : State) (nbits w : Nat) : State := (s.placeWord nbits w).setRun .running

end Sys2Proof.Machine
end

