-- ==== Sys2Proof/Machine/HostSide.lean ====
section
/-! DEFINITION. The host's side of the interface: the transactions of 10_state.md rule R36, the program load of R57 and
R58, and what the host reads and shows (R160, R229, R265). -/

namespace Sys2Proof.Machine

/-- `load(bytes)` (R57, R58): legal once, after `init()` and before the first step, for at most 256 bytes. It writes the
bytes from address 0 up, changes no register, flag or PC, and the core is Running. -/
def State.load (bytes : List Byte) (s : State) : Host.Outcome State Fault Refusal :=
  match s.run with
  | .awaitingLoad =>
    if bytes.length ≤ 256 then .next ({ s with mem := Memory.writeFrom s.mem 0 bytes }.setRun .running)
    else .refused .programTooLong
  | .running => .refused .loadNotLegal
  | .halted => .refused .loadNotLegal
  | .faulted _ => .refused .loadNotLegal

/-- The transactions that move the core (R36). -/
inductive Transaction where
  | init
  | load (bytes : List Byte)
  | step
deriving DecidableEq, Repr

/-- One transaction of the core. -/
def transact (t : Transaction) (s : State) : Host.Outcome State Fault Refusal :=
  match t with
  | .init => .next s.init
  | .load bytes => s.load bytes
  | .step => Sys2Proof.Machine.step s

/-- The status the host may read at any time (R36). -/
def State.status (s : State) : RunState := s.run

/-- The state dump, which the host may take after Halted or Faulted and not before (R36). -/
def State.dump (s : State) : Option State :=
  match s.run with
  | .halted => some s
  | .faulted _ => some s
  | .running => none
  | .awaitingLoad => none

/-- A byte in unsigned decimal digits, most significant first, with no leading zeros (R160, D7). -/
def decimalDigits (b : Byte) : List Nat :=
  if b.toNat < 10 then [b.toNat]
  else if b.toNat < 100 then [b.toNat / 10, b.toNat % 10]
  else [b.toNat / 100, b.toNat / 10 % 10, b.toNat % 10]

/-- The lines the host shows, one for each byte of the trace, in order (R160, R265). -/
def State.outputLines (s : State) : List (List Nat) := s.out.map decimalDigits

/-- What the host's diagnostic names (R229): the opcode byte and the PC, and for an illegal register the operand byte
(D19). -/
structure Diagnostic where
  opcode  : Byte
  pc      : Byte
  operand : Option Byte
deriving DecidableEq, Repr

/-- The diagnostic for a fault record (R229, D19). -/
def FaultRecord.diagnostic (r : FaultRecord) : Diagnostic :=
  match r.cause with
  | .illegalOpcode => { opcode := r.opcode, pc := r.pc, operand := none }
  | .illegalRegister => { opcode := r.opcode, pc := r.pc, operand := some r.info }

/-- The diagnostic's text, which the spec leaves open (D19): a free value. -/
def FaultRecord.diagnosticText (r : FaultRecord) : String :=
  Config.hostDiagnostic r.cause.code r.pc r.opcode r.info

/-- The host's exit status once a run has ended (R120, R265): 0 after Halted, some other number after Faulted. -/
def State.exitStatus (s : State) : Option Nat :=
  match s.run with
  | .halted => some 0
  | .faulted r => some (Config.faultExitCode r.cause.code r.pc r.opcode r.info + 1)
  | .running => none
  | .awaitingLoad => none

end Sys2Proof.Machine
end

