-- ==== Sys2Proof/Machine/Run.lean ====
section
/-! DEFINITION. A run (40_execution_cycle.md rule R120): the sequence of states from the state after `load` under repeated
`step`, its two ends, its observation, the infinite run, and the run under fuel (93_implementation_defined.md U14). -/

namespace Sys2Proof.Machine

/-- The core has stopped, in one of the two ends of a run (R120, R236). -/
def State.stopped (s : State) : Bool :=
  match s.run with
  | .halted => true
  | .faulted _ => true
  | .running => false
  | .awaitingLoad => false

/-- The state after `n` steps, if there are that many (R117, R118). -/
def State.after : Nat → State → Option State
  | 0, s => some s
  | n + 1, s =>
    match step s with
    | .next t => State.after n t
    | .fault _ => none
    | .refused _ => none

/-- `init()`, then `load(bytes)`, on a machine with the parameters `c` (R263). -/
def launch (c : Config) (bytes : List Byte) : Host.Outcome State Fault Refusal :=
  State.load bytes { State.reset with cfg := c }

/-- State `n` of the run of a program, counted from the state after `load` (R120). A refused launch has no run. -/
def runState (c : Config) (bytes : List Byte) (n : Nat) : Option State :=
  match launch c bytes with
  | .next s => State.after n s
  | .fault _ => none
  | .refused _ => none

/-- What is observed of a run that has ended: the final state, every field of R20, and the output trace (R120). -/
structure Observation where
  final : State
  out   : List Byte
deriving DecidableEq, Repr

/-- The observation of a final state (R120). -/
def State.observe (s : State) : Observation := { final := s, out := s.out }

/-- The run from `s` under fuel: the observation of its end if it ends within `fuel` steps. Running out of fuel is not a
result (U14), so it answers none. -/
def runWithFuel : Nat → State → Option Observation
  | 0, s => if s.stopped then some s.observe else none
  | fuel + 1, s =>
    if s.stopped then some s.observe
    else
      match step s with
      | .next t => runWithFuel fuel t
      | .fault _ => none
      | .refused _ => none

/-- The run from `s` is infinite: it never reaches Halted or Faulted (R120). -/
def RunsForever (s : State) : Prop := ∀ n, ∃ t, State.after n s = some t ∧ t.run = .running

end Sys2Proof.Machine
end

