-- ==== Sys2Proof/Safety.lean ====
section
/-! DEFINITION. What claims are stated in: the invariant of the core's states and the states a host can bring about. -/

namespace Sys2Proof.Machine

/-- A machine that clears the flags at each compare never has two of them set (R26, R134). -/
def State.flagsOk (s : State) : Bool :=
  !s.cfg.cmpClearsFlags || !((s.fl.E && s.fl.L) || (s.fl.E && s.fl.G) || (s.fl.L && s.fl.G))

/-- A fault record tells the truth about the state it stopped in (R33, R220, R222, R223). -/
def State.recordOk (s : State) : Bool :=
  match s.run with
  | .faulted r =>
    r.pc == s.pc && r.opcode == s.fetch.op &&
    match r.cause with
    | .illegalOpcode => r.info == r.opcode && !s.cfg.opcodeMap.bytes.contains r.opcode
    | .illegalRegister =>
      !isRegIndex r.info &&
      if isRegIndex s.fetch.opA then s.cfg.opcodeMap.aluBytes.contains r.opcode && r.info == s.fetch.opB
      else s.cfg.opcodeMap.regBytes.contains r.opcode && r.info == s.fetch.opA
  | .running => true
  | .halted => true
  | .awaitingLoad => true

/-- A core that waits for `load` is in the state `init()` leaves (R35). -/
def State.launchOk (s : State) : Bool :=
  match s.run with
  | .awaitingLoad => s == s.init
  | .running => true
  | .halted => true
  | .faulted _ => true

/-- The invariant of the core: memory in its canonical form, parameters that meet R86, flags, fault record and launch
state as the rules leave them. -/
abbrev State.Inv (s : State) : Prop :=
  Memory.wf s.mem = true ∧ s.cfg.opcodeMap.wf = true ∧ s.flagsOk = true ∧ s.recordOk = true ∧ s.launchOk = true

/-- The registers an instruction may write, by number: the "writes" column of R23. -/
def registersWritten : Instr → List Nat
  | .ldi rA _ => [rA.toNat]
  | .add rA _ => [rA.toNat]
  | .mul rA _ => [rA.toNat]
  | .prn _ => []
  | .push _ => [7]
  | .pop rA => [rA.toNat, 7]
  | .call _ => [7]
  | .ret => [7]
  | .cmp _ _ => []
  | .hlt => []

/-- The cell an instruction stores to: the "data writes" column of R56. -/
def storedAddress : Instr → State → Option Byte
  | .ldi _ _, _ => none
  | .add _ _, _ => none
  | .mul _ _, _ => none
  | .prn _, _ => none
  | .push _, s => some s.spDown.sp
  | .pop _, _ => none
  | .call _, s => some s.spDown.sp
  | .ret, _ => none
  | .cmp _ _, _ => none
  | .hlt, _ => none

/-- The states a host can bring about (R36, R261): what `init()` leaves under any parameters that meet R86, and what a
transaction makes of one. A run, by step alone from the loaded state, is `runState` of Machine/Run.lean (R120). -/
inductive Reachable : State → Prop where
  | launch (c : Config) (h : c.opcodeMap.wf = true) : Reachable { State.reset with cfg := c }
  | move (s s' : State) (t : Transaction) (hs : Reachable s) (h : transact t s = .next s') : Reachable s'

end Sys2Proof.Machine
end

