-- ==== Sys2Proof/Certificates/Slice0/Obligations.lean ====
section
/-! DEFINITION. The statements for the provers. Each docstring names the rule of spec/ it formalises; where a clause
rests on a decision the spec marks as its own, or on a choice of the model's, the docstring says which (D<n> is a row of
92_eei_decisions.md, "log" is notes/assumptions/). Illegal register indices fault by D3 (log 6), addresses and the PC wrap
by D5 (log 7), and opcode bytes are any map that meets R86 (D1, log 3 and 4) unless `historicalMap` is named. -/

open Sys2Proof Sys2Proof.Machine

/-! ## Reset, load and the run states -/

/-- R35, R260: what `init()` leaves. The empty output, the absent record and the wait for `load` rest on D6, D7 and D9;
that the wait is a run state of its own is the model's (log 1, DEDUCED). -/
def Obligations.ResetLeavesEveryInitValue : Prop :=
  (∀ a : Byte, State.reset.memRead a = 0x00) ∧
  (∀ r : RegIdx, r.val < 7 → State.reset.readReg r = 0x00) ∧ State.reset.readReg 7 = 0xF4 ∧
  State.reset.pc = 0x00 ∧ State.reset.fl = { E := false, L := false, G := false } ∧ State.reset.out = [] ∧
  (∀ r, State.reset.run ≠ .faulted r) ∧ step State.reset = .refused .stepBeforeLoad

/-- R260: `init()` from ANY state, stopped or not, leaves the values of R35 and keeps only the machine's parameters; no
other transaction leaves Halted or Faulted. -/
def Obligations.InitAloneLeavesTheStoppedStates : Prop :=
  (∀ s : State, ∃ t, transact .init s = .next t ∧ (∀ a : Byte, t.memRead a = 0x00) ∧
    (∀ r : RegIdx, t.readReg r = if r = 7 then 0xF4 else 0x00) ∧ t.pc = 0x00 ∧
    t.fl = { E := false, L := false, G := false } ∧ t.out = [] ∧ t.run = .awaitingLoad ∧ t.cfg = s.cfg) ∧
  (∀ (s t : State) (tr : Transaction), (s.run = .halted ∨ ∃ r, s.run = .faulted r) → transact tr s = .next t →
    tr = .init)

/-- R57 and R58: after `init()` load of at most 256 bytes (D9) writes them from address 0 in order, every other cell keeps
its 0x00, no register, flag or PC changes, nor the output (D7) or the parameters (log 3, DESIGN CHOICE), and the core is
Running. -/
def Obligations.LoadWritesTheBytesFromZero : Prop :=
  ∀ (s : State) (bytes : List Byte), bytes.length ≤ 256 →
    ∃ t, s.init.load bytes = .next t ∧
      (∀ a : Byte, t.memRead a = if a.toNat < bytes.length then bytes.getD a.toNat 0 else 0x00) ∧
      t.x = s.init.x ∧ t.fl = s.init.fl ∧ t.pc = s.init.pc ∧ t.out = s.init.out ∧ t.cfg = s.cfg ∧ t.run = .running

/-- R58 (D9): load is legal only after `init()` and before the first step, for at most 256 bytes. -/
def Obligations.LoadIsRefusedOutsideItsConditions : Prop :=
  ∀ (s : State) (bytes : List Byte),
    (s.run ≠ .awaitingLoad → s.load bytes = .refused .loadNotLegal) ∧
    (s.run = .awaitingLoad → 256 < bytes.length → s.load bytes = .refused .programTooLong) ∧
    (s.run = .awaitingLoad → bytes.length ≤ 256 → ∃ t, s.load bytes = .next t ∧ t.run = .running)

/-- R262: the first instruction executed is the byte the loader placed at address 0, with the stack empty at 0xF4. -/
def Obligations.FirstFetchIsTheFirstLoadedByte : Prop :=
  ∀ (s t : State) (b : Byte) (bytes : List Byte), s.init.load (b :: bytes) = .next t →
    t.run = .running ∧ t.pc = 0x00 ∧ t.fetch.op = b ∧ t.sp = 0xF4

/-- R118: in Halted and Faulted the core has no step, and no load changes it either: only `init()` does. -/
def Obligations.StoppedCoreTakesNoStep : Prop :=
  ∀ s : State, (s.run = .halted ∨ ∃ r, s.run = .faulted r) →
    (∀ t, step s ≠ .next t) ∧ (∀ bytes t, s.load bytes ≠ .next t) ∧ ∃ t, transact .init s = .next t

/-! ## Encoding and decoding -/

/-- R80, R82, R85: decoding an instruction's own bytes gives it back, with every operand at every value and whatever
bytes follow, under every opcode map that meets R86. -/
def Obligations.DecodeOfEncodeIsTheInstruction : Prop :=
  ∀ (m : OpcodeMap) (i : Instr) (rest : List Byte), m.wf = true → decode m (encode m i ++ rest) = .ok (i, rest)

/-- The other direction: bytes that decode are the encoding of what they decode to, so each word has one meaning. -/
def Obligations.DecodedBytesAreTheEncoding : Prop :=
  ∀ (m : OpcodeMap) (bytes rest : List Byte) (i : Instr), m.wf = true → decode m bytes = .ok (i, rest) →
    bytes = encode m i ++ rest

/-- R80: 1, 2 or 3 bytes, the length being `op[7:6] + 1`, told from the first byte alone. -/
def Obligations.LengthIsOperandCountPlusOne : Prop :=
  ∀ (m : OpcodeMap) (i : Instr), m.wf = true →
    (encode m i).length = ((opcodeOf m i).extractLsb' 6 2).toNat + 1 ∧
    1 ≤ (encode m i).length ∧ (encode m i).length ≤ 3

/-- R84, with the byte values of D1: the bytes the spec's table gives decode to the instructions it gives. -/
def Obligations.TableWordsDecodeToTheirInstructions : Prop :=
  decodeFetched historicalMap 0b10000010 0x03 0xFF = .ok (.ldi 0x03 0xFF) ∧
  decodeFetched historicalMap 0b10100000 0x00 0x01 = .ok (.add 0x00 0x01) ∧
  decodeFetched historicalMap 0b10100010 0x03 0x04 = .ok (.mul 0x03 0x04) ∧
  decodeFetched historicalMap 0b01000111 0x07 0x01 = .ok (.prn 0x07) ∧
  decodeFetched historicalMap 0b01000101 0x05 0x46 = .ok (.push 0x05) ∧
  decodeFetched historicalMap 0b01000110 0x06 0x01 = .ok (.pop 0x06) ∧
  decodeFetched historicalMap 0b01010000 0x01 0x47 = .ok (.call 0x01) ∧
  decodeFetched historicalMap 0b00010001 0xFF 0xFF = .ok .ret ∧
  decodeFetched historicalMap 0b10100111 0x01 0x10 = .ok (.cmp 0x01 0x10) ∧
  decodeFetched historicalMap 0b00000001 0x09 0x09 = .ok .hlt

/-- R85 (D2): the whole opcode byte selects the instruction, and a byte outside the ten selects none. -/
def Obligations.DecodeMatchesTheWholeByte : Prop :=
  ∀ (m : OpcodeMap) (a b : Byte), m.wf = true →
    decodeFetched m m.ldi a b = .ok (.ldi a b) ∧ decodeFetched m m.add a b = .ok (.add a b) ∧
    decodeFetched m m.mul a b = .ok (.mul a b) ∧ decodeFetched m m.prn a b = .ok (.prn a) ∧
    decodeFetched m m.push a b = .ok (.push a) ∧ decodeFetched m m.pop a b = .ok (.pop a) ∧
    decodeFetched m m.call a b = .ok (.call a) ∧ decodeFetched m m.ret a b = .ok .ret ∧
    decodeFetched m m.cmp a b = .ok (.cmp a b) ∧ decodeFetched m m.hlt a b = .ok .hlt ∧
    ∀ op, op ∉ m.bytes → decodeFetched m op a b = .error (.unrecognizedOpcode op)

/-- R86: the default bytes of R84 meet the conditions on a map, each condition written out. -/
def Obligations.HistoricalMapMeetsItsConditions : Prop :=
  historicalMap.wf = true ∧
  historicalMap.bytes.Pairwise (fun a b => a ≠ b) ∧
  (∀ b ∈ historicalMap.bytes, b.extractLsb' 6 2 ≠ 0b11#2) ∧
  (∀ b ∈ historicalMap.bytes, b.getLsbD 5 = true ↔ b ∈ historicalMap.aluBytes)

/-- R82 (93_implementation_defined.md U13): operand bytes that the format does not include are read and ignored. -/
def Obligations.BytesOutsideTheFormatAreIgnored : Prop :=
  ∀ (m : OpcodeMap) (op a b a' b' : Byte), m.wf = true →
    (op.extractLsb' 6 2 = 0 → decodeFetched m op a b = decodeFetched m op a' b') ∧
    (op.extractLsb' 6 2 = 1 → decodeFetched m op a b = decodeFetched m op a b')

/-- R88, with the byte values of D1: exactly 246 of the 256 opcode bytes are unrecognized, 0x00 and every byte with
`op[7:6] = 0b11` among them. -/
def Obligations.AllButTenOpcodeBytesAreUnrecognized : Prop :=
  ((List.range 256).filter (fun n => !historicalMap.bytes.contains (BitVec.ofNat 8 n))).length = 246 ∧
  (0x00 : Byte) ∉ historicalMap.bytes ∧
  (∀ op : Byte, op.extractLsb' 6 2 = 3 → op ∉ historicalMap.bytes) ∧
  (∀ op a b : Byte, op ∉ historicalMap.bytes → decodeFetched historicalMap op a b = .error (.unrecognizedOpcode op))

/-! ## Fetch and step -/

/-- R110, R66 (D5): fetch reads three bytes at pc, pc+1 and pc+2, and the addresses wrap past 0xFF. -/
def Obligations.FetchReadsThreeBytesAndWraps : Prop :=
  ∀ s : State,
    (s.fetch.op = s.memRead s.pc ∧ s.fetch.opA = s.memRead (BitVec.ofNat 8 (s.pc.toNat + 1)) ∧
      s.fetch.opB = s.memRead (BitVec.ofNat 8 (s.pc.toNat + 2))) ∧
    (s.pc = 0xFE → s.fetch.opA = s.memRead 0xFF ∧ s.fetch.opB = s.memRead 0x00) ∧
    (s.pc = 0xFF → s.fetch.opA = s.memRead 0x00 ∧ s.fetch.opB = s.memRead 0x01)

/-- R111, R117: a step of a Running core is the effect of the instruction its three fetched bytes decode to, and nothing
around it: the PC's move is part of the instruction's own effect. -/
def Obligations.StepRunsTheDecodedInstruction : Prop :=
  ∀ (s : State) (i : Instr), s.run = .running →
    decodeFetched s.cfg.opcodeMap (s.memRead s.pc) (s.memRead (s.pc + 1)) (s.memRead (s.pc + 2)) = .ok i →
    step s = exec i s

/-- R117: the step of a Running core is total. It always answers a next state. -/
def Obligations.RunningCoreAlwaysSteps : Prop :=
  ∀ s : State, s.run = .running → ∃ t, step s = .next t

/-- R114 (D5): after every instruction but CALL and RET that does not fault, the PC has moved by `op[7:6] + 1`: 3 for LDI,
ADD, MUL and CMP, 2 for PRN, PUSH and POP, 1 for HLT. -/
def Obligations.DefaultAdvanceMovesThePc : Prop :=
  ∀ (s : State) (i : Instr), s.cfg.opcodeMap.wf = true → i.wf = true → (∀ a, i ≠ .call a) → i ≠ .ret →
    ∃ t, exec i s = .next t ∧ t.pc = s.pc + BitVec.ofNat 8 (((opcodeOf s.cfg.opcodeMap i).extractLsb' 6 2).toNat + 1) ∧
      t.pc = s.pc + BitVec.ofNat 8 (encode s.cfg.opcodeMap i).length

/-- R118 (quoted there: the halt instruction or the fatal unrecognized-opcode path; the illegal register is D3's): a
step ends in Halted exactly when it executes HLT. -/
def Obligations.OnlyHltHalts : Prop :=
  ∀ s t : State, s.cfg.opcodeMap.wf = true → step s = .next t →
    (t.run = .halted ↔ s.memRead s.pc = s.cfg.opcodeMap.hlt)

/-! ## Faults -/

/-- R220: a step that faults leaves the state before it with the run state alone changed, and the record names the
faulting opcode and its address. -/
def Obligations.FaultsArePrecise : Prop :=
  ∀ (s t : State) (r : FaultRecord), step s = .next t → t.run = .faulted r →
    t = { s with run := .faulted r } ∧ r.pc = s.pc ∧ r.opcode = s.memRead s.pc

/-- R222: an opcode byte outside the ten faults, with the byte and the PC at which it was fetched. -/
def Obligations.UnrecognizedOpcodeFaults : Prop :=
  ∀ s : State, s.run = .running → s.memRead s.pc ∉ s.cfg.opcodeMap.bytes →
    step s = .next
      { s with run := .faulted ⟨.illegalOpcode, s.pc, s.memRead s.pc, s.memRead s.pc⟩ }

/-- R112, R223 (D3, D12; log 6): any instruction whose register bytes are not all legal faults on the FIRST of them above
0x07, with nothing written; RET and HLT have none. -/
def Obligations.FirstIllegalRegisterByteFaults : Prop :=
  (∀ (s : State) (i : Instr) (b : Byte), i.regOperands.find? (fun c => decide (8 ≤ c.toNat)) = some b →
    exec i s = .next
      { s with run := .faulted ⟨.illegalRegister, s.pc, opcodeOf s.cfg.opcodeMap i, b⟩ }) ∧
  (∀ s t : State, exec .ret s = .next t ∨ exec .hlt s = .next t → ∀ r, s.run ≠ .faulted r → t.run ≠ .faulted r)

/-- R225 (D12): of several failing checks the first decides: the opcode, then opA, then opB. -/
def Obligations.FaultPriorityIsOpcodeThenFirstOperand : Prop :=
  ∀ (s t : State) (r : FaultRecord), step s = .next t → t.run = .faulted r →
    (r.cause = .illegalOpcode ↔ s.memRead s.pc ∉ s.cfg.opcodeMap.bytes) ∧
    (r.cause = .illegalRegister → 8 ≤ (s.memRead (s.pc + 1)).toNat → r.info = s.memRead (s.pc + 1)) ∧
    (r.cause = .illegalRegister → (s.memRead (s.pc + 1)).toNat < 8 →
      r.info = s.memRead (s.pc + 2) ∧ s.memRead s.pc ∈ s.cfg.opcodeMap.aluBytes)

/-- R224: nothing else faults. An instruction whose register bytes are legal completes, whatever the operands, addresses,
stack pointer and target, and the core is Halted after HLT and Running after the rest. -/
def Obligations.NothingElseFaults : Prop :=
  ∀ (s : State) (i : Instr), s.run = .running → i.wf = true →
    decodeFetched s.cfg.opcodeMap s.fetch.op s.fetch.opA s.fetch.opB = .ok i →
    ∃ t, step s = .next t ∧ t.run = if i = .hlt then .halted else .running

/-! ## Memory -/

/-- R51, R52: a write stores the byte in its cell, changes no other cell and nothing else of the state. -/
def Obligations.WriteChangesItsCellAlone : Prop :=
  ∀ (s : State) (a v : Byte), Memory.wf s.mem = true →
    (∀ b : Byte, (s.memWrite a v).memRead b = if b = a then v else s.memRead b) ∧
    (s.memWrite a v).x = s.x ∧ (s.memWrite a v).pc = s.pc ∧ (s.memWrite a v).fl = s.fl ∧
    (s.memWrite a v).run = s.run ∧ (s.memWrite a v).out = s.out ∧ (s.memWrite a v).cfg = s.cfg

/-- R30, R50: memory is the 256 bytes it reads as. Two memories in canonical form that read the same at every byte address
are equal as data (the form is the model's, log 13). -/
def Obligations.CanonicalMemoryIsItsReads : Prop :=
  ∀ m n : Memory, Memory.wf m = true → Memory.wf n = true →
    (∀ a : Byte, Memory.read m a.toNat = Memory.read n a.toNat) → m = n

/-- R62, R268 (D18, log 14): PUSH and CALL, the two instructions that store, act on the operand byte latched at fetch even
where the store lands on it; and every byte after the step, which is what any later fetch reads until the next store, is
the stored byte at the stored address and the old byte elsewhere, so the next fetch sees the store in its opcode and in
both operand bytes. PUSH R7 and CALL R7 by D16. -/
def Obligations.StoresKeepLatchedOperandsAndReachTheNextFetch : Prop :=
  ∀ (s : State) (h : (s.memRead (s.pc + 1)).toNat < 8), s.run = .running → s.cfg.opcodeMap.wf = true →
    Memory.wf s.mem = true →
    (s.memRead s.pc = s.cfg.opcodeMap.push → ∃ t v, step s = .next t ∧ t.pc = s.pc + 2 ∧
      v = (s.x.set 7 (s.x[7] - 1))[(s.memRead (s.pc + 1)).toNat] ∧
      (∀ a, t.memRead a = if a = s.sp - 1 then v else s.memRead a) ∧
      t.fetch = { op := if t.pc = s.sp - 1 then v else s.memRead t.pc,
                  opA := if t.pc + 1 = s.sp - 1 then v else s.memRead (t.pc + 1),
                  opB := if t.pc + 2 = s.sp - 1 then v else s.memRead (t.pc + 2) }) ∧
    (s.memRead s.pc = s.cfg.opcodeMap.call → ∃ t, step s = .next t ∧
      t.pc = (s.x.set 7 (s.x[7] - 1))[(s.memRead (s.pc + 1)).toNat] ∧
      (∀ a, t.memRead a = if a = s.sp - 1 then s.pc + 2 else s.memRead a) ∧
      t.fetch = { op := if t.pc = s.sp - 1 then s.pc + 2 else s.memRead t.pc,
                  opA := if t.pc + 1 = s.sp - 1 then s.pc + 2 else s.memRead (t.pc + 1),
                  opB := if t.pc + 2 = s.sp - 1 then s.pc + 2 else s.memRead (t.pc + 2) })

/-! ## The instructions -/

/-- R150: LDI. The register holds the immediate as is. The exception is by D3, the bytes by D1, the PC's wrap by D5. -/
def Obligations.LdiLoadsTheImmediate : Prop :=
  ∀ (s : State) (rA imm8 : Byte), s.cfg.opcodeMap.wf = true →
    (∀ h : rA.toNat < 8, exec (.ldi rA imm8) s = .next { s with x := s.x.set rA.toNat imm8, pc := s.pc + 3 }) ∧
    (8 ≤ rA.toNat → exec (.ldi rA imm8) s = .next
      { s with run := .faulted ⟨.illegalRegister, s.pc, s.cfg.opcodeMap.ldi, rA⟩ }) ∧
    encode historicalMap (.ldi rA imm8) = [0x82, rA, imm8]

/-- R130: ADD. The exact sum, modulo 256, into x[rA]; no flag. Exceptions by D3, bytes by D1, the PC's wrap by D5. -/
def Obligations.AddWritesTheWrappedSum : Prop :=
  ∀ (s : State) (rA rB : Byte), s.cfg.opcodeMap.wf = true →
    (∀ (hA : rA.toNat < 8) (hB : rB.toNat < 8), exec (.add rA rB) s = .next
      { s with x := s.x.set rA.toNat (BitVec.ofNat 8 ((s.x[rA.toNat].toNat + s.x[rB.toNat].toNat) % 256)),
               pc := s.pc + 3 }) ∧
    (8 ≤ rA.toNat → exec (.add rA rB) s = .next
      { s with run := .faulted ⟨.illegalRegister, s.pc, s.cfg.opcodeMap.add, rA⟩ }) ∧
    (rA.toNat < 8 → 8 ≤ rB.toNat → exec (.add rA rB) s = .next
      { s with run := .faulted ⟨.illegalRegister, s.pc, s.cfg.opcodeMap.add, rB⟩ }) ∧
    encode historicalMap (.add rA rB) = [0xA0, rA, rB]

/-- R132: MUL. The low 8 bits of the exact product into x[rA]; no flag. Exceptions by D3, bytes by D1, the PC's wrap
by D5. -/
def Obligations.MulWritesTheLowByteOfTheProduct : Prop :=
  ∀ (s : State) (rA rB : Byte), s.cfg.opcodeMap.wf = true →
    (∀ (hA : rA.toNat < 8) (hB : rB.toNat < 8), exec (.mul rA rB) s = .next
      { s with x := s.x.set rA.toNat (BitVec.ofNat 8 ((s.x[rA.toNat].toNat * s.x[rB.toNat].toNat) % 256)),
               pc := s.pc + 3 }) ∧
    (8 ≤ rA.toNat → exec (.mul rA rB) s = .next
      { s with run := .faulted ⟨.illegalRegister, s.pc, s.cfg.opcodeMap.mul, rA⟩ }) ∧
    (rA.toNat < 8 → 8 ≤ rB.toNat → exec (.mul rA rB) s = .next
      { s with run := .faulted ⟨.illegalRegister, s.pc, s.cfg.opcodeMap.mul, rB⟩ }) ∧
    encode historicalMap (.mul rA rB) = [0xA2, rA, rB]

/-- R134 (D4): CMP, under both values of `cmpClearsFlags`. Each flag is its comparison, or, where the machine does not
clear, its old value; a machine that clears has exactly one flag true. -/
def Obligations.CmpSetsTheFlagsOfTheUnsignedOrder : Prop :=
  ∀ (s : State) (rA rB : Byte), s.cfg.opcodeMap.wf = true →
    (∀ (hA : rA.toNat < 8) (hB : rB.toNat < 8), ∃ t, exec (.cmp rA rB) s = .next t ∧
      t = { s with pc := s.pc + 3,
                   fl := { E := decide (s.x[rA.toNat].toNat = s.x[rB.toNat].toNat) || (!s.cfg.cmpClearsFlags && s.fl.E),
                           L := decide (s.x[rA.toNat].toNat < s.x[rB.toNat].toNat) || (!s.cfg.cmpClearsFlags && s.fl.L),
                           G := decide (s.x[rB.toNat].toNat < s.x[rA.toNat].toNat) || (!s.cfg.cmpClearsFlags && s.fl.G) } } ∧
      (s.cfg.cmpClearsFlags = true → [t.fl.E, t.fl.L, t.fl.G].count true = 1)) ∧
    (8 ≤ rA.toNat → exec (.cmp rA rB) s = .next
      { s with run := .faulted ⟨.illegalRegister, s.pc, s.cfg.opcodeMap.cmp, rA⟩ }) ∧
    (rA.toNat < 8 → 8 ≤ rB.toNat → exec (.cmp rA rB) s = .next
      { s with run := .faulted ⟨.illegalRegister, s.pc, s.cfg.opcodeMap.cmp, rB⟩ }) ∧
    encode historicalMap (.cmp rA rB) = [0xA7, rA, rB]

/-- R160 (the host's rendering, D7, is another statement): PRN appends the register to the output trace. -/
def Obligations.PrnEmitsTheRegister : Prop :=
  ∀ (s : State) (rA : Byte), s.cfg.opcodeMap.wf = true →
    (∀ h : rA.toNat < 8, exec (.prn rA) s = .next { s with out := s.out ++ [s.x[rA.toNat]], pc := s.pc + 2 }) ∧
    (8 ≤ rA.toNat → exec (.prn rA) s = .next
      { s with run := .faulted ⟨.illegalRegister, s.pc, s.cfg.opcodeMap.prn, rA⟩ }) ∧
    encode historicalMap (.prn rA) = [0x47, rA]

/-- R170 (PUSH R7 by D16, log 8): SP goes down by one, wrapping, and the cell it then names holds the register, read after
the decrement. Every other cell, register, flag and field is as before. -/
def Obligations.PushStoresAtTheDecrementedSp : Prop :=
  ∀ (s : State) (rA : Byte), s.cfg.opcodeMap.wf = true → Memory.wf s.mem = true →
    (∀ h : rA.toNat < 8, ∃ t, exec (.push rA) s = .next t ∧ t.x = s.x.set 7 (s.x[7] - 1) ∧
      (∀ a : Byte, t.memRead a = if a = s.spDown.sp then (s.x.set 7 (s.x[7] - 1))[rA.toNat] else s.memRead a) ∧
      s.spDown.sp = s.x[7] - 1 ∧ t.pc = s.pc + 2 ∧ t.fl = s.fl ∧ t.run = s.run ∧ t.out = s.out ∧ t.cfg = s.cfg) ∧
    (8 ≤ rA.toNat → exec (.push rA) s = .next
      { s with run := .faulted ⟨.illegalRegister, s.pc, s.cfg.opcodeMap.push, rA⟩ }) ∧
    encode historicalMap (.push rA) = [0x45, rA]

/-- R175 (POP R7 by D16, log 8): the register holds the byte at SP, and x[7], read after that write, goes up by one. No
cell changes. -/
def Obligations.PopLoadsAndIncrementsSp : Prop :=
  ∀ (s : State) (rA : Byte), s.cfg.opcodeMap.wf = true →
    (∀ h : rA.toNat < 8, exec (.pop rA) s = .next
      { s with x := (s.x.set rA.toNat (s.memRead s.x[7])).set 7 ((s.x.set rA.toNat (s.memRead s.x[7]))[7] + 1),
               pc := s.pc + 2 }) ∧
    (8 ≤ rA.toNat → exec (.pop rA) s = .next
      { s with run := .faulted ⟨.illegalRegister, s.pc, s.cfg.opcodeMap.pop, rA⟩ }) ∧
    encode historicalMap (.pop rA) = [0x46, rA]

/-- R190 (CALL R7 by D16, log 8): the address of the next instruction is pushed, and the PC is the register, read after the
decrement. No default advance. -/
def Obligations.CallPushesTheReturnAddressAndJumps : Prop :=
  ∀ (s : State) (rA : Byte), s.cfg.opcodeMap.wf = true → Memory.wf s.mem = true →
    (∀ h : rA.toNat < 8, ∃ t, exec (.call rA) s = .next t ∧ t.x = s.x.set 7 (s.x[7] - 1) ∧
      (∀ a : Byte, t.memRead a = if a = s.spDown.sp then s.pc + 2 else s.memRead a) ∧
      s.spDown.sp = s.x[7] - 1 ∧ t.pc = (s.x.set 7 (s.x[7] - 1))[rA.toNat] ∧ t.fl = s.fl ∧ t.run = s.run ∧
      t.out = s.out ∧ t.cfg = s.cfg) ∧
    (8 ≤ rA.toNat → exec (.call rA) s = .next
      { s with run := .faulted ⟨.illegalRegister, s.pc, s.cfg.opcodeMap.call, rA⟩ }) ∧
    encode historicalMap (.call rA) = [0x50, rA]

/-- R195: RET goes to the byte at SP and moves SP up by one, with no check and no default advance. The byte 0x11
is by D1, SP's wrap by D5. -/
def Obligations.RetPopsThePc : Prop :=
  ∀ s : State,
    exec .ret s = .next { s with x := s.x.set 7 (s.x[7] + 1), pc := s.memRead s.x[7] } ∧
    encode historicalMap .ret = [0x11]

/-- R210 (the wrap at 0xFF by D5): HLT stops the core, and the PC still moves past the halt byte. -/
def Obligations.HltHaltsPastItsByte : Prop :=
  ∀ s : State, s.cfg.opcodeMap.wf = true →
    exec .hlt s = .next { s with run := .halted, pc := s.pc + 1 } ∧ encode historicalMap .hlt = [0x01]

/-- R136: the ALU's arithmetic is unsigned, 8 bits wide and wraps, and its comparison is the unsigned order. -/
def Obligations.AluArithmeticWrapsUnsigned : Prop :=
  ∀ a b : Byte,
    (aluAdd a b).toNat = (a.toNat + b.toNat) % 256 ∧
    (aluMul a b).toNat = (a.toNat * b.toNat) % 256 ∧
    compareFlags true a b Flags.cleared =
      { E := decide (a.toNat = b.toNat), L := decide (a.toNat < b.toNat), G := decide (a.toNat > b.toNat) }

/-! ## Frames -/

/-- R23 ("writes"): a register an instruction is not given to write is unchanged, on every path, faults included. -/
def Obligations.RegistersOutsideTheWriteTableAreUnchanged : Prop :=
  ∀ (s t : State) (i : Instr) (r : RegIdx), exec i s = .next t → r.val ∉ registersWritten i →
    t.readReg r = s.readReg r

/-- R56 ("data writes"): every cell is unchanged but the one PUSH or CALL stores to, at the decremented SP. -/
def Obligations.CellsOutsideTheStoreAreUnchanged : Prop :=
  ∀ (s t : State) (i : Instr) (b : Byte), Memory.wf s.mem = true → exec i s = .next t →
    (storedAddress i s = none → t.memRead b = s.memRead b) ∧
    (∀ a, storedAddress i s = some a → b ≠ a → t.memRead b = s.memRead b)

/-- R26: only CMP writes the flags, no other operation reads them, they are false after `init()`, and a machine that clears
has exactly one true after a CMP. -/
def Obligations.FlagsBelongToCompareAlone : Prop :=
  State.reset.fl = { E := false, L := false, G := false } ∧
  (∀ (s t : State) (i : Instr), (∀ a b, i ≠ .cmp a b) → exec i s = .next t → t.fl = s.fl) ∧
  (∀ (s t : State) (i : Instr) (f : Flags), exec i s = .next t → (∀ a b, i ≠ .cmp a b) →
    exec i { s with fl := f } = .next { t with fl := f }) ∧
  (∀ (s t : State) (a b : Byte), s.cfg.cmpClearsFlags = true → a.toNat < 8 → b.toNat < 8 →
    exec (.cmp a b) s = .next t → [t.fl.E, t.fl.L, t.fl.G].count true = 1)

/-- R31 (D7), R160: only PRN emits, at most one byte a step, after everything already there; the trace is read by nothing
and a fault keeps it. -/
def Obligations.OutputOnlyGrowsByPrn : Prop :=
  (∀ (s t : State) (i : Instr), exec i s = .next t → ∃ v, t.out = s.out ++ v ∧ v.length ≤ 1 ∧
    ((∀ a, i ≠ .prn a) → v = [])) ∧
  (∀ (s t : State) (i : Instr) (o : List Byte), exec i s = .next t →
    ∃ v, t.out = s.out ++ v ∧ exec i { s with out := o } = .next { t with out := o ++ v })

/-- R6: the machine's parameters are fixed: no transaction changes them. That they stand in State is the model's choice
(log 3, DESIGN CHOICE). -/
def Obligations.ParametersNeverChange : Prop :=
  ∀ (s t : State) (tr : Transaction), transact tr s = .next t → t.cfg = s.cfg

/-! ## Laws of the stack and of calls -/

/-- R180, law 1, for every register, R7 included (D16): PUSH then POP of one register restores it and SP, and leaves the
pushed byte in its cell. -/
def Obligations.PushThenPopRestores : Prop :=
  ∀ (s : State) (rA : Byte) (h : rA.toNat < 8), Memory.wf s.mem = true →
    ∃ s1 s2, exec (.push rA) s = .next s1 ∧ exec (.pop rA) s1 = .next s2 ∧ s2.x = s.x ∧
      s2.memRead (s.sp - 1) = (if rA = 7 then s.sp - 1 else s.x[rA.toNat])

/-- R180, law 2: PUSH Ra then POP Rb copies, for registers other than R7, and restores SP. -/
def Obligations.PushThenPopCopies : Prop :=
  ∀ (s : State) (rA rB : Byte) (hA : rA.toNat < 7) (hB : rB.toNat < 7), Memory.wf s.mem = true →
    ∃ s1 s2, exec (.push rA) s = .next s1 ∧ exec (.pop rB) s1 = .next s2 ∧ s2.x = s.x.set rB.toNat s.x[rA.toNat]

/-- R200, law 1: a CALL step, then a RET step at its target, resumes after the CALL with every register, SP among them, the
flags and the output as before it; of memory the return byte's cell alone has changed. The law is stated for every register, R7 included (by D16). -/
def Obligations.CallThenReturnResumes : Prop :=
  ∀ s s1 : State, s.run = .running → s.cfg.opcodeMap.wf = true → Memory.wf s.mem = true →
    s.memRead s.pc = s.cfg.opcodeMap.call → (s.memRead (s.pc + 1)).toNat < 8 → step s = .next s1 →
    s1.memRead s1.pc = s1.cfg.opcodeMap.ret →
    ∃ s2, step s1 = .next s2 ∧ s2.run = .running ∧ s2.pc = s.pc + 2 ∧ s2.x = s.x ∧ s2.fl = s.fl ∧ s2.out = s.out ∧
      ∀ a : Byte, s2.memRead a = if a = s.sp - 1 then s.pc + 2 else s.memRead a

/-! ## The host's side -/

/-- R36 (D14): the dump is given after Halted or Faulted, whole, and not before. -/
def Obligations.DumpIsGivenAfterTheStop : Prop :=
  ∀ s : State,
    ((s.run = .halted ∨ ∃ r, s.run = .faulted r) → s.dump = some s) ∧
    (s.run = .running ∨ s.run = .awaitingLoad → s.dump = none)

/-- R160, R265 (D7): there is one line for each emitted byte, in order, and line `k` is byte `k` in unsigned decimal: not
empty, every digit below 10, no leading zero, read back to the byte's value. -/
def Obligations.OutputLinesAreUnsignedDecimal : Prop :=
  (∀ s : State, s.outputLines.length = s.out.length ∧
    ∀ (k : Nat) (h : k < s.out.length), ∃ line, s.outputLines[k]? = some line ∧
      line.foldl (fun n d => 10 * n + d) 0 = s.out[k].toNat ∧ (∀ d ∈ line, d < 10) ∧
      (line.length = 1 ∨ (1 < line.length ∧ line.head? ≠ some 0))) ∧
  (∀ s : State, s.out = [0x00, 0xFF] → s.outputLines = [[0], [2, 5, 5]])

/-- R265 (D19): exit status 0 after Halted, and another number after Faulted, WHATEVER the free value is; the diagnostic
names the opcode byte and the PC, and the operand byte of an illegal register. -/
def Obligations.ExitStatusTellsHaltFromFault : Prop :=
  ∀ s : State,
    (s.run = .halted → s.exitStatus = some 0) ∧
    (∀ r, s.run = .faulted r → ∃ n, s.exitStatus = some n ∧ n ≠ 0 ∧ r.diagnostic.opcode = r.opcode ∧
      r.diagnostic.pc = r.pc ∧ (r.cause = .illegalRegister → r.diagnostic.operand = some r.info)) ∧
    (s.run = .running ∨ s.run = .awaitingLoad → s.exitStatus = none)

/-! ## Invariants -/

/-- The invariant holds at reset, under the default parameters and under any that meet R86. -/
def Obligations.ResetMeetsTheInvariant : Prop :=
  State.reset.Inv ∧ ∀ c : Config, c.opcodeMap.wf = true → State.Inv { State.reset with cfg := c }

/-- Every step keeps the invariant: canonical memory, parameters that meet R86, at most one flag on a machine that clears
(R26), a truthful fault record (R33, R222, R223) and the launch state of R35. -/
def Obligations.StepKeepsTheInvariant : Prop :=
  ∀ s t : State, s.Inv → step s = .next t → t.Inv

/-- Every state a host can bring about by init, load and step meets the invariant, and a Running one always steps to
another such state. -/
def Obligations.ReachableStatesMeetTheInvariant : Prop :=
  ∀ s : State, Reachable s → s.Inv ∧ (s.run = .running → ∃ t, step s = .next t ∧ Reachable t)

/-- Every transaction keeps the invariant: `init()` and a load as well as a step, from every state that meets it. -/
def Obligations.TransactionKeepsTheInvariant : Prop :=
  ∀ (s t : State) (tr : Transaction), s.Inv → transact tr s = .next t → t.Inv

/-! ## Runs -/

/-- R120, R263: a run is the sequence of states from the state after `load` under repeated step. It begins Running at the
loaded state, state n+1 is the step of state n, and it has no state after one that has stopped. -/
def Obligations.RunIsTheStatesUnderRepeatedStep : Prop :=
  ∀ (c : Config) (bytes : List Byte) (s : State), launch c bytes = .next s →
    runState c bytes 0 = some s ∧ s.run = .running ∧
    ∀ (n : Nat) (t : State), runState c bytes n = some t →
      (∀ t', step t = .next t' → runState c bytes (n + 1) = some t') ∧
      (t.run = .halted ∨ (∃ r, t.run = .faulted r) → runState c bytes (n + 1) = none) ∧
      (t.run = .running ∨ t.run = .halted ∨ ∃ r, t.run = .faulted r)

/-- R120 (U14): a run ends, with an observation under some fuel, or it is infinite, and not both. -/
def Obligations.EveryRunEndsOrIsInfinite : Prop :=
  ∀ s : State, s.run = .running →
    ((∃ fuel o, runWithFuel fuel s = some o) ∨ RunsForever s) ∧
    ¬((∃ fuel o, runWithFuel fuel s = some o) ∧ RunsForever s)

/-- R120 (exit status by D19): a run that ends does so in Halted, exit status 0, or in Faulted, another status. Its
observation is a state of the run and that state's output, more fuel changes nothing, and output emitted earlier stays,
on the faulted path too. -/
def Obligations.RunEndsHaltedOrFaultedWithItsOutput : Prop :=
  ∀ (fuel : Nat) (s : State) (o : Observation), runWithFuel fuel s = some o →
    (∃ n, n ≤ fuel ∧ State.after n s = some o.final) ∧
    ((o.final.run = .halted ∧ o.final.exitStatus = some 0) ∨
      ((∃ r, o.final.run = .faulted r) ∧ ∃ code, o.final.exitStatus = some code ∧ code ≠ 0)) ∧
    o.out = o.final.out ∧
    (∀ more, fuel ≤ more → runWithFuel more s = some o) ∧
    (∀ (n : Nat) (t : State), State.after n s = some t → t.out <+: o.out)
end

