-- ==== Sys2Proof/Laws/State.lean ====
section
/-! SUPPORT. What each update of the state leaves in each field: one lemma per field per update, true by definition, so
that no later proof unfolds a record update. -/

namespace Sys2Proof.Machine

variable (s : State)

-- memWrite
@[simp] theorem memWrite_mem (a v : Byte) : (s.memWrite a v).mem = Memory.write s.mem a.toNat v := rfl
@[simp] theorem memWrite_x (a v : Byte) : (s.memWrite a v).x = s.x := rfl
@[simp] theorem memWrite_pc (a v : Byte) : (s.memWrite a v).pc = s.pc := rfl
@[simp] theorem memWrite_fl (a v : Byte) : (s.memWrite a v).fl = s.fl := rfl
@[simp] theorem memWrite_run (a v : Byte) : (s.memWrite a v).run = s.run := rfl
@[simp] theorem memWrite_out (a v : Byte) : (s.memWrite a v).out = s.out := rfl
@[simp] theorem memWrite_cfg (a v : Byte) : (s.memWrite a v).cfg = s.cfg := rfl

-- writeReg
@[simp] theorem writeReg_mem (r : RegIdx) (v : Byte) : (s.writeReg r v).mem = s.mem := rfl
@[simp] theorem writeReg_x (r : RegIdx) (v : Byte) : (s.writeReg r v).x = s.x.set r.val v r.isLt := rfl
@[simp] theorem writeReg_pc (r : RegIdx) (v : Byte) : (s.writeReg r v).pc = s.pc := rfl
@[simp] theorem writeReg_fl (r : RegIdx) (v : Byte) : (s.writeReg r v).fl = s.fl := rfl
@[simp] theorem writeReg_run (r : RegIdx) (v : Byte) : (s.writeReg r v).run = s.run := rfl
@[simp] theorem writeReg_out (r : RegIdx) (v : Byte) : (s.writeReg r v).out = s.out := rfl
@[simp] theorem writeReg_cfg (r : RegIdx) (v : Byte) : (s.writeReg r v).cfg = s.cfg := rfl

-- setPc
@[simp] theorem setPc_mem (t : Byte) : (s.setPc t).mem = s.mem := rfl
@[simp] theorem setPc_x (t : Byte) : (s.setPc t).x = s.x := rfl
@[simp] theorem setPc_pc (t : Byte) : (s.setPc t).pc = t := rfl
@[simp] theorem setPc_fl (t : Byte) : (s.setPc t).fl = s.fl := rfl
@[simp] theorem setPc_run (t : Byte) : (s.setPc t).run = s.run := rfl
@[simp] theorem setPc_out (t : Byte) : (s.setPc t).out = s.out := rfl
@[simp] theorem setPc_cfg (t : Byte) : (s.setPc t).cfg = s.cfg := rfl

-- setFlags
@[simp] theorem setFlags_mem (f : Flags) : (s.setFlags f).mem = s.mem := rfl
@[simp] theorem setFlags_x (f : Flags) : (s.setFlags f).x = s.x := rfl
@[simp] theorem setFlags_pc (f : Flags) : (s.setFlags f).pc = s.pc := rfl
@[simp] theorem setFlags_fl (f : Flags) : (s.setFlags f).fl = f := rfl
@[simp] theorem setFlags_run (f : Flags) : (s.setFlags f).run = s.run := rfl
@[simp] theorem setFlags_out (f : Flags) : (s.setFlags f).out = s.out := rfl
@[simp] theorem setFlags_cfg (f : Flags) : (s.setFlags f).cfg = s.cfg := rfl

-- setRun
@[simp] theorem setRun_mem (r : RunState) : (s.setRun r).mem = s.mem := rfl
@[simp] theorem setRun_x (r : RunState) : (s.setRun r).x = s.x := rfl
@[simp] theorem setRun_pc (r : RunState) : (s.setRun r).pc = s.pc := rfl
@[simp] theorem setRun_fl (r : RunState) : (s.setRun r).fl = s.fl := rfl
@[simp] theorem setRun_run (r : RunState) : (s.setRun r).run = r := rfl
@[simp] theorem setRun_out (r : RunState) : (s.setRun r).out = s.out := rfl
@[simp] theorem setRun_cfg (r : RunState) : (s.setRun r).cfg = s.cfg := rfl

-- emit
@[simp] theorem emit_mem (v : Byte) : (s.emit v).mem = s.mem := rfl
@[simp] theorem emit_x (v : Byte) : (s.emit v).x = s.x := rfl
@[simp] theorem emit_pc (v : Byte) : (s.emit v).pc = s.pc := rfl
@[simp] theorem emit_fl (v : Byte) : (s.emit v).fl = s.fl := rfl
@[simp] theorem emit_run (v : Byte) : (s.emit v).run = s.run := rfl
@[simp] theorem emit_out (v : Byte) : (s.emit v).out = s.out ++ [v] := rfl
@[simp] theorem emit_cfg (v : Byte) : (s.emit v).cfg = s.cfg := rfl

-- advance
@[simp] theorem advance_mem (op : Byte) : (s.advance op).mem = s.mem := rfl
@[simp] theorem advance_x (op : Byte) : (s.advance op).x = s.x := rfl
@[simp] theorem advance_pc (op : Byte) : (s.advance op).pc = s.pc + BitVec.ofNat 8 (operandCount op + 1) := rfl
@[simp] theorem advance_fl (op : Byte) : (s.advance op).fl = s.fl := rfl
@[simp] theorem advance_run (op : Byte) : (s.advance op).run = s.run := rfl
@[simp] theorem advance_out (op : Byte) : (s.advance op).out = s.out := rfl
@[simp] theorem advance_cfg (op : Byte) : (s.advance op).cfg = s.cfg := rfl

-- raise
@[simp] theorem raise_mem (c : FaultCause) (op info : Byte) : (s.raise c op info).mem = s.mem := rfl
@[simp] theorem raise_x (c : FaultCause) (op info : Byte) : (s.raise c op info).x = s.x := rfl
@[simp] theorem raise_pc (c : FaultCause) (op info : Byte) : (s.raise c op info).pc = s.pc := rfl
@[simp] theorem raise_fl (c : FaultCause) (op info : Byte) : (s.raise c op info).fl = s.fl := rfl
@[simp] theorem raise_run (c : FaultCause) (op info : Byte) : (s.raise c op info).run = .faulted ⟨c, s.pc, op, info⟩ := rfl
@[simp] theorem raise_out (c : FaultCause) (op info : Byte) : (s.raise c op info).out = s.out := rfl
@[simp] theorem raise_cfg (c : FaultCause) (op info : Byte) : (s.raise c op info).cfg = s.cfg := rfl

-- spDown
@[simp] theorem spDown_mem : (s.spDown).mem = s.mem := rfl
@[simp] theorem spDown_x : (s.spDown).x = s.x.set 7 (s.sp - 1) := rfl
@[simp] theorem spDown_pc : (s.spDown).pc = s.pc := rfl
@[simp] theorem spDown_fl : (s.spDown).fl = s.fl := rfl
@[simp] theorem spDown_run : (s.spDown).run = s.run := rfl
@[simp] theorem spDown_out : (s.spDown).out = s.out := rfl
@[simp] theorem spDown_cfg : (s.spDown).cfg = s.cfg := rfl

-- spUp
@[simp] theorem spUp_mem : (s.spUp).mem = s.mem := rfl
@[simp] theorem spUp_x : (s.spUp).x = s.x.set 7 (s.sp + 1) := rfl
@[simp] theorem spUp_pc : (s.spUp).pc = s.pc := rfl
@[simp] theorem spUp_fl : (s.spUp).fl = s.fl := rfl
@[simp] theorem spUp_run : (s.spUp).run = s.run := rfl
@[simp] theorem spUp_out : (s.spUp).out = s.out := rfl
@[simp] theorem spUp_cfg : (s.spUp).cfg = s.cfg := rfl

-- init
@[simp] theorem init_mem : s.init.mem = State.reset.mem := rfl
@[simp] theorem init_x : s.init.x = State.reset.x := rfl
@[simp] theorem init_pc : s.init.pc = State.reset.pc := rfl
@[simp] theorem init_fl : s.init.fl = State.reset.fl := rfl
@[simp] theorem init_run : s.init.run = State.reset.run := rfl
@[simp] theorem init_out : s.init.out = State.reset.out := rfl
@[simp] theorem init_cfg : s.init.cfg = s.cfg := rfl

end Sys2Proof.Machine
end

