-- ==== Sys2Proof/Laws/Memory.lean ====
section
/-! SUPPORT. What the memory operations do: reading after writing, reading after a load, and the canonical form, which
every operation keeps. -/

namespace Sys2Proof.Machine

/-- Reading past a cell that was put in front. -/
theorem Memory.read_cons (a : Nat) (v : Byte) (m : Memory) (b : Nat) (h : a = b → v ≠ unlistedByte ∨ Memory.read m b = v) :
    Memory.read (Memory.cons a v m) b = if a = b then v else Memory.read m b := by
  by_cases hv : v = unlistedByte
  · by_cases hb : a = b
    · simpa [Memory.cons, hv, hb] using (h hb).resolve_left (by simpa using hv)
    · simp [Memory.cons, hv, hb]
  · by_cases hb : a = b <;> simp [Memory.cons, hv, Memory.read, hb]

/-- The entries of a memory in canonical form: rising, below 256, none that reads as an unlisted cell does. -/
theorem Memory.wf_iff (m : Memory) : Memory.wf m = true ↔
    m.Pairwise (fun p q => p.1 < q.1) ∧ ∀ p ∈ m, p.1 < 256 ∧ p.2 ≠ unlistedByte := by
  simp [Memory.wf]

theorem Memory.wf_nil : Memory.wf [] = true := by decide

/-- A cell below every listed one reads as unlisted. -/
theorem Memory.read_below (m : Memory) (a : Nat) (h : ∀ p ∈ m, a < p.1) : Memory.read m a = unlistedByte := by
  induction m with
  | nil => rfl
  | cons p rest ih =>
    have hp := h p (by simp)
    simp only [Memory.read]
    rw [if_neg (by omega)]
    exact ih fun q hq => h q (by simp [hq])

/-- The tail of a rising memory holds nothing at its head's address. -/
theorem Memory.read_head_tail {k : Nat} {w : Byte} {rest : Memory}
    (h : List.Pairwise (fun p q : Host.Cell => p.1 < q.1) ((k, w) :: rest)) :
    Memory.read rest k = unlistedByte :=
  Memory.read_below rest k (List.pairwise_cons.mp h).1

/-- READ AFTER WRITE, in a memory whose addresses rise: the written cell holds the byte, every other what it held. -/
theorem Memory.read_write (m : Memory) (hm : m.Pairwise (fun p q => p.1 < q.1)) (a : Nat) (v : Byte) (b : Nat) :
    Memory.read (Memory.write m a v) b = if a = b then v else Memory.read m b := by
  induction m with
  | nil =>
    refine Memory.read_cons a v [] b fun _ => ?_
    by_cases hv : v = unlistedByte
    · exact .inr hv.symm
    · exact .inl hv
  | cons p rest ih =>
    obtain ⟨k, w⟩ := p
    simp only [Memory.write]
    split
    · rename_i hak
      refine Memory.read_cons a v _ b fun hab => ?_
      by_cases hv : v = unlistedByte
      · refine .inr (hv ▸ Memory.read_below _ b fun q hq => ?_)
        rcases List.mem_cons.mp hq with rfl | hq
        · omega
        · have := (List.pairwise_cons.mp hm).1 q hq
          simp only at this
          omega
      · exact .inl hv
    · split
      · rename_i hak
        subst hak
        rw [Memory.read_cons a v rest b fun hab => ?_]
        · by_cases hab : a = b <;> simp [Memory.read, hab]
        · by_cases hv : v = unlistedByte
          · exact .inr (hab ▸ hv ▸ Memory.read_head_tail hm)
          · exact .inl hv
      · rename_i hlt hne
        have := ih (List.pairwise_cons.mp hm).2
        simp only [Memory.read, this]
        by_cases hkb : k = b
        · subst hkb; simp [hne]
        · simp [hkb]

/-- Every entry of a written memory is an old one or the written one. -/
theorem Memory.mem_write (m : Memory) (a : Nat) (v : Byte) (p : Host.Cell) (h : p ∈ Memory.write m a v) :
    p ∈ m ∨ (p = (a, v) ∧ v ≠ unlistedByte) := by
  have cons_case : ∀ rest : Memory, p ∈ Memory.cons a v rest → p ∈ rest ∨ (p = (a, v) ∧ v ≠ unlistedByte) := by
    intro rest hp
    by_cases hv : v = unlistedByte
    · exact .inl (by simpa [Memory.cons, hv] using hp)
    · rcases (by simpa [Memory.cons, hv] using hp : p = (a, v) ∨ p ∈ rest) with rfl | hp
      · exact .inr ⟨rfl, hv⟩
      · exact .inl hp
  induction m with
  | nil => exact cons_case [] h
  | cons q rest ih =>
    simp only [Memory.write] at h
    split at h
    · exact cons_case _ h
    · split at h
      · exact (cons_case _ h).imp (fun hr => List.mem_cons_of_mem q hr) id
      · rcases List.mem_cons.mp h with rfl | h
        · exact .inl (by simp)
        · exact (ih h).imp (fun hr => List.mem_cons_of_mem q hr) id

/-- A write keeps the addresses rising. -/
theorem Memory.pairwise_write (m : Memory) (hm : m.Pairwise (fun p q => p.1 < q.1)) (a : Nat) (v : Byte) :
    (Memory.write m a v).Pairwise (fun p q => p.1 < q.1) := by
  have cons_case : ∀ rest : Memory, rest.Pairwise (fun p q => p.1 < q.1) → (∀ q ∈ rest, a < q.1) →
      (Memory.cons a v rest).Pairwise (fun p q => p.1 < q.1) := by
    intro rest hr hlt
    unfold Memory.cons
    split
    · exact hr
    · exact List.pairwise_cons.mpr ⟨hlt, hr⟩
  induction m with
  | nil => exact cons_case [] List.Pairwise.nil (by simp)
  | cons p rest ih =>
    obtain ⟨hp, hrest⟩ := List.pairwise_cons.mp hm
    simp only [Memory.write]
    split
    · rename_i hap
      refine cons_case _ hm fun q hq => ?_
      rcases List.mem_cons.mp hq with rfl | hq
      · exact hap
      · exact Nat.lt_trans hap (hp q hq)
    · split
      · rename_i hap
        exact cons_case _ hrest fun q hq => hap ▸ hp q hq
      · rename_i hlt hne
        refine List.pairwise_cons.mpr ⟨fun q hq => ?_, ih hrest⟩
        rcases Memory.mem_write rest a v q hq with hq | ⟨rfl, -⟩
        · exact hp q hq
        · show p.1 < a
          omega

/-- A write keeps the canonical form. -/
theorem Memory.wf_write (m : Memory) (hm : Memory.wf m = true) (a : Nat) (ha : a < 256) (v : Byte) :
    Memory.wf (Memory.write m a v) = true := by
  obtain ⟨hs, hv⟩ := (Memory.wf_iff m).mp hm
  refine (Memory.wf_iff _).mpr ⟨Memory.pairwise_write m hs a v, fun p hp => ?_⟩
  rcases Memory.mem_write m a v p hp with hp | ⟨rfl, hne⟩
  · exact hv p hp
  · exact ⟨ha, hne⟩

/-- A load keeps the canonical form. -/
theorem Memory.wf_writeFrom (bs : List Byte) : ∀ (m : Memory) (a : Nat), Memory.wf m = true → a + bs.length ≤ 256 →
    Memory.wf (Memory.writeFrom m a bs) = true := by
  induction bs with
  | nil => exact fun m a hm _ => hm
  | cons b bs ih =>
    intro m a hm ha
    simp only [List.length_cons] at ha
    exact ih _ _ (Memory.wf_write m hm a (by omega) b) (by omega)

/-- READ AFTER LOAD: the loaded cells hold the bytes in order, every other what it held. -/
theorem Memory.read_writeFrom (bs : List Byte) : ∀ (m : Memory) (a : Nat), m.Pairwise (fun p q => p.1 < q.1) →
    ∀ b, Memory.read (Memory.writeFrom m a bs) b =
      if a ≤ b ∧ b < a + bs.length then bs.getD (b - a) 0 else Memory.read m b := by
  induction bs with
  | nil =>
    intro m a _ b
    simp only [Memory.writeFrom, List.length_nil]
    rw [if_neg (by omega)]
  | cons x bs ih =>
    intro m a hm b
    simp only [Memory.writeFrom, List.length_cons]
    rw [ih _ _ (Memory.pairwise_write m hm a x), Memory.read_write m hm]
    by_cases hab : a = b
    · subst hab
      rw [if_neg (by omega), if_pos rfl, if_pos (by omega)]
      simp
    · by_cases hin : a + 1 ≤ b ∧ b < a + 1 + bs.length
      · rw [if_pos hin, if_pos (by omega), show b - a = (b - (a + 1)) + 1 by omega]
        simp
      · rw [if_neg hin, if_neg hab, if_neg (by omega)]

end Sys2Proof.Machine
end

