-- ==== Sys2Proof/Laws/Registers.lean ====
section
/-! SUPPORT. Reading registers and memory of a state after an update. -/

namespace Sys2Proof.Machine

/-- A register just written holds the value, every other what it held (R21). -/
theorem readReg_writeReg (s : State) (r q : RegIdx) (v : Byte) :
    (s.writeReg r v).readReg q = if r = q then v else s.readReg q := by
  simp only [State.readReg, State.writeReg, Vector.get_eq_getElem, Vector.getElem_set, Fin.ext_iff]

/-- A register read depends on the register file alone. -/
theorem readReg_congr {s t : State} (h : s.x = t.x) (r : RegIdx) : s.readReg r = t.readReg r := by
  simp [State.readReg, h]

/-- A memory read depends on the memory alone. -/
theorem memRead_congr {s t : State} (h : s.mem = t.mem) (a : Byte) : s.memRead a = t.memRead a := by
  simp [State.memRead, h]

@[simp] theorem readReg_memWrite (s : State) (a v : Byte) (r : RegIdx) : (s.memWrite a v).readReg r = s.readReg r := rfl
@[simp] theorem readReg_setPc (s : State) (t : Byte) (r : RegIdx) : (s.setPc t).readReg r = s.readReg r := rfl
@[simp] theorem readReg_advance (s : State) (op : Byte) (r : RegIdx) : (s.advance op).readReg r = s.readReg r := rfl
@[simp] theorem memRead_writeReg (s : State) (r : RegIdx) (v a : Byte) : (s.writeReg r v).memRead a = s.memRead a := rfl
@[simp] theorem memRead_setPc (s : State) (t a : Byte) : (s.setPc t).memRead a = s.memRead a := rfl
@[simp] theorem memRead_advance (s : State) (op a : Byte) : (s.advance op).memRead a = s.memRead a := rfl
@[simp] theorem memRead_setRun (s : State) (r : RunState) (a : Byte) : (s.setRun r).memRead a = s.memRead a := rfl
@[simp] theorem memRead_spDown (s : State) (a : Byte) : s.spDown.memRead a = s.memRead a := rfl
@[simp] theorem memRead_spUp (s : State) (a : Byte) : s.spUp.memRead a = s.memRead a := rfl

/-- A register after the stack pointer's step down. -/
theorem readReg_spDown (s : State) (r : RegIdx) : s.spDown.readReg r = if spReg = r then s.sp - 1 else s.readReg r :=
  readReg_writeReg s spReg r _

/-- A register after the stack pointer's step up. -/
theorem readReg_spUp (s : State) (r : RegIdx) : s.spUp.readReg r = if spReg = r then s.sp + 1 else s.readReg r :=
  readReg_writeReg s spReg r _

/-- Two register files that read the same are equal. -/
theorem x_ext {s t : State} (h : ∀ r, s.readReg r = t.readReg r) : s.x = t.x :=
  Vector.ext fun i hi => h ⟨i, hi⟩

/-- The stack pointer after one step down. -/
theorem sp_spDown (s : State) : s.spDown.sp = s.sp - 1 := by
  simp [State.sp, State.spDown, readReg_writeReg]

/-- The stack pointer after one step up. -/
theorem sp_spUp (s : State) : s.spUp.sp = s.sp + 1 := by
  simp [State.sp, State.spUp, readReg_writeReg]

end Sys2Proof.Machine
end

