-- ==== Sys2Proof/Laws/Operands.lean ====
section
/-! SUPPORT. What the operand check can do, said once (R112, R223, R225). -/

namespace Sys2Proof.Machine

/-- A legal byte names the register of its value. -/
theorem checkReg_legal (b : Byte) (h : b.toNat < 8) : checkReg b = some ⟨b.toNat, h⟩ := by
  simp [checkReg, h]

/-- A byte above 7 names no register. -/
theorem checkReg_illegal (b : Byte) (h : 8 ≤ b.toNat) : checkReg b = none := by
  simp [checkReg, Nat.not_lt.mpr h]

/-- With a legal byte the check goes on with its index. -/
theorem withReg_legal (op b : Byte) (s : State) (k : RegIdx → Host.Outcome State Fault Refusal) (h : b.toNat < 8) :
    withReg op b s k = k ⟨b.toNat, h⟩ := by
  simp [withReg, checkReg_legal b h]

/-- With a byte above 7 the check takes the fault. -/
theorem withReg_illegal (op b : Byte) (s : State) (k : RegIdx → Host.Outcome State Fault Refusal) (h : 8 ≤ b.toNat) :
    withReg op b s k = .next (s.raise .illegalRegister op b) := by
  simp [withReg, checkReg_illegal b h]

/-- Whatever the check answers, it is one of those two. -/
theorem withReg_cases (op b : Byte) (s : State) (k : RegIdx → Host.Outcome State Fault Refusal) :
    (∃ h : b.toNat < 8, withReg op b s k = k ⟨b.toNat, h⟩) ∨
    (8 ≤ b.toNat ∧ withReg op b s k = .next (s.raise .illegalRegister op b)) := by
  by_cases h : b.toNat < 8
  · exact .inl ⟨h, withReg_legal op b s k h⟩
  · exact .inr ⟨by omega, withReg_illegal op b s k (by omega)⟩

/-- With two legal bytes the two checks go on with both indices. -/
theorem withRegs_legal (op a b : Byte) (s : State) (k : RegIdx → RegIdx → Host.Outcome State Fault Refusal)
    (ha : a.toNat < 8) (hb : b.toNat < 8) : withRegs op a b s k = k ⟨a.toNat, ha⟩ ⟨b.toNat, hb⟩ := by
  rw [withRegs, withReg_legal op a s _ ha, withReg_legal op b s _ hb]

/-- Whatever the two checks answer: both legal, or the fault for opA, or with opA legal the fault for opB. -/
theorem withRegs_cases (op a b : Byte) (s : State) (k : RegIdx → RegIdx → Host.Outcome State Fault Refusal) :
    (∃ (ha : a.toNat < 8) (hb : b.toNat < 8), withRegs op a b s k = k ⟨a.toNat, ha⟩ ⟨b.toNat, hb⟩) ∨
    (8 ≤ a.toNat ∧ withRegs op a b s k = .next (s.raise .illegalRegister op a)) ∨
    (a.toNat < 8 ∧ 8 ≤ b.toNat ∧ withRegs op a b s k = .next (s.raise .illegalRegister op b)) := by
  rcases withReg_cases op a s (fun rA => withReg op b s fun rB => k rA rB) with ⟨ha, h⟩ | ⟨ha, h⟩
  · rcases withReg_cases op b s (fun rB => k ⟨a.toNat, ha⟩ rB) with ⟨hb, h'⟩ | ⟨hb, h'⟩
    · exact .inl ⟨ha, hb, h.trans h'⟩
    · exact .inr (.inr ⟨ha, hb, h.trans h'⟩)
  · exact .inr (.inl ⟨ha, h⟩)

end Sys2Proof.Machine
end

