-- ==== Sys2Proof/Laws/Decode.lean ====
section
/-! SUPPORT. The operand counts of a map that meets R86, and what decoding fetched bytes can answer. -/

namespace Sys2Proof

/-- The three parts of R86's conditions. -/
theorem OpcodeMap.wf_parts {m : OpcodeMap} (h : m.wf = true) :
    m.bytes.Nodup ∧ m.countsAgree = true ∧ m.aluBitAgrees = true := by
  simpa [OpcodeMap.wf, and_assoc] using h

/-- The operand counts of the ten bytes of a map that meets R86 (R80, R84). -/
theorem OpcodeMap.wf_counts {m : OpcodeMap} (h : m.wf = true) :
    (operandCount m.ldi = 2 ∧ operandCount m.add = 2 ∧ operandCount m.mul = 2 ∧ operandCount m.cmp = 2) ∧
    (operandCount m.prn = 1 ∧ operandCount m.push = 1 ∧ operandCount m.pop = 1 ∧ operandCount m.call = 1) ∧
    operandCount m.ret = 0 ∧ operandCount m.hlt = 0 := by
  have hc := (OpcodeMap.wf_parts h).2.1
  simp only [OpcodeMap.countsAgree, List.all_cons, List.all_nil, Bool.and_true, Bool.and_eq_true, beq_iff_eq] at hc
  obtain ⟨⟨⟨h1, h2, h3, h4⟩, h5, h6, h7, h8⟩, h9, h10⟩ := hc
  simp [operandCount, h1, h2, h3, h4, h5, h6, h7, h8, h9, h10]

/-- What decoding fetched bytes can answer: an instruction of that opcode byte, or no byte of the map matches. -/
theorem decodeFetched_cases (m : OpcodeMap) (op opA opB : Byte) :
    (∃ i, decodeFetched m op opA opB = .ok i ∧ opcodeOf m i = op) ∨
    (decodeFetched m op opA opB = .error (.unrecognizedOpcode op) ∧ op ∉ m.bytes) := by
  simp only [decodeFetched]
  repeat' split
  all_goals first
    | exact .inl ⟨_, rfl, by simp_all [opcodeOf]⟩
    | exact .inr ⟨rfl, by simp_all [OpcodeMap.bytes]⟩

/-- What an instruction decoded from fetched bytes can be: one of the ten, with the two latched operand bytes (R82). -/
theorem decodeFetched_ok {m : OpcodeMap} {op opA opB : Byte} {i : Instr} (h : decodeFetched m op opA opB = .ok i) :
    opcodeOf m i = op ∧
      (i = .ldi opA opB ∨ i = .add opA opB ∨ i = .mul opA opB ∨ i = .prn opA ∨ i = .push opA ∨ i = .pop opA ∨
        i = .call opA ∨ i = .ret ∨ i = .cmp opA opB ∨ i = .hlt) := by
  simp only [decodeFetched] at h
  repeat' split at h
  all_goals first
    | (injection h with h; subst h; exact ⟨by simp_all [opcodeOf], by simp⟩)
    | cases h

end Sys2Proof
end

