-- ==== Sys2Proof/Laws/HostSide.lean ====
section
/-! SUPPORT. What `load` and the fetch can do, said once (R57, R58, R110). -/

namespace Sys2Proof.Machine

/-- A load where it is legal (R57, R58). -/
theorem load_legal (s : State) (bytes : List Byte) (hr : s.run = .awaitingLoad) (hl : bytes.length ≤ 256) :
    s.load bytes = .next { s with mem := Memory.writeFrom s.mem 0 bytes, run := .running } := by
  simp [State.load, hr, hl, State.setRun]

/-- If a load answers a next state, it was legal, and this is the state. -/
theorem load_next {s t : State} {bytes : List Byte} (h : s.load bytes = .next t) :
    s.run = .awaitingLoad ∧ bytes.length ≤ 256 ∧
      t = { s with mem := Memory.writeFrom s.mem 0 bytes, run := .running } := by
  cases hr : s.run <;> simp only [State.load, hr, reduceCtorEq] at h
  split at h
  · rename_i hl
    exact ⟨rfl, hl, by simpa [State.setRun] using h.symm⟩
  · cases h

@[simp] theorem fetch_op (s : State) : s.fetch.op = s.memRead s.pc := rfl
@[simp] theorem fetch_opA (s : State) : s.fetch.opA = s.memRead (s.pc + 1) := rfl
@[simp] theorem fetch_opB (s : State) : s.fetch.opB = s.memRead (s.pc + 2) := rfl

end Sys2Proof.Machine
end

