-- ==== Sys2Proof/Laws/PerInstr.lean ====
section
/-! SUPPORT. The statements made per instruction (LAWS.json): the family FirstByte. -/

namespace Sys2Proof.Laws.FirstByte

/-- The first byte of an instruction's encoding is its own byte of the map, one of the map's ten (R84, R85). -/
def Statement (i : Instr) : Prop :=
  ∀ m : OpcodeMap, (encode m i).head? = some (opcodeOf m i) ∧ opcodeOf m i ∈ m.bytes

theorem ldi (rA imm8 : Byte) : Statement (.ldi rA imm8) := fun m => ⟨rfl, by simp [opcodeOf, OpcodeMap.bytes]⟩
theorem add (rA rB : Byte) : Statement (.add rA rB) := fun m => ⟨rfl, by simp [opcodeOf, OpcodeMap.bytes]⟩
theorem mul (rA rB : Byte) : Statement (.mul rA rB) := fun m => ⟨rfl, by simp [opcodeOf, OpcodeMap.bytes]⟩
theorem prn (rA : Byte) : Statement (.prn rA) := fun m => ⟨rfl, by simp [opcodeOf, OpcodeMap.bytes]⟩
theorem push (rA : Byte) : Statement (.push rA) := fun m => ⟨rfl, by simp [opcodeOf, OpcodeMap.bytes]⟩
theorem pop (rA : Byte) : Statement (.pop rA) := fun m => ⟨rfl, by simp [opcodeOf, OpcodeMap.bytes]⟩
theorem call (rA : Byte) : Statement (.call rA) := fun m => ⟨rfl, by simp [opcodeOf, OpcodeMap.bytes]⟩
theorem ret : Statement .ret := fun m => ⟨rfl, by simp [opcodeOf, OpcodeMap.bytes]⟩
theorem cmp (rA rB : Byte) : Statement (.cmp rA rB) := fun m => ⟨rfl, by simp [opcodeOf, OpcodeMap.bytes]⟩
theorem hlt : Statement .hlt := fun m => ⟨rfl, by simp [opcodeOf, OpcodeMap.bytes]⟩

end Sys2Proof.Laws.FirstByte
end

