-- ==== Sys2Proof/Laws/Step.lean ====
section
/-! SUPPORT. What a step can do, said once (R117, R118, R222). -/

namespace Sys2Proof.Machine

/-- If a step answers a next state, the core was Running, and either the fetched bytes decode and the state is that of the
instruction's effect, or the opcode byte is none of the ten and the core has faulted. -/
theorem step_next {s t : State} (h : step s = .next t) :
    s.run = .running ∧
      ((∃ i, decodeFetched s.cfg.opcodeMap s.fetch.op s.fetch.opA s.fetch.opB = .ok i ∧
          opcodeOf s.cfg.opcodeMap i = s.fetch.op ∧ exec i s = .next t) ∨
        (s.fetch.op ∉ s.cfg.opcodeMap.bytes ∧ t = s.raise .illegalOpcode s.fetch.op s.fetch.op)) := by
  cases hr : s.run <;> simp only [step, hr, reduceCtorEq] at h
  refine ⟨rfl, ?_⟩
  rcases decodeFetched_cases s.cfg.opcodeMap s.fetch.op s.fetch.opA s.fetch.opB with ⟨i, hi, hop⟩ | ⟨he, hn⟩
  · rw [hi] at h
    exact .inl ⟨i, hi, hop, h⟩
  · rw [he] at h
    cases h
    exact .inr ⟨hn, rfl⟩

end Sys2Proof.Machine
end

