-- ==== Sys2Proof/Laws/Run.lean ====
section
/-! SUPPORT. What a run can do, said once: one step of it, its end, and R120's own example of an infinite run. -/

namespace Sys2Proof.Machine

@[simp] theorem after_zero (s : State) : State.after 0 s = some s := rfl

/-- The first step of a run comes off in front. -/
theorem after_succ_of_step {s t : State} (h : step s = .next t) (n : Nat) :
    State.after (n + 1) s = State.after n t := by
  simp [State.after, h]

/-- A later state of a run is reached through any state on the way. -/
theorem after_add (m n : Nat) : ∀ s : State, State.after (m + n) s = (State.after m s).bind (State.after n) := by
  induction m with
  | zero => intro s; simp
  | succ m ih =>
    intro s
    rw [Nat.succ_add, State.after, State.after]
    cases step s with
    | next t => exact ih t
    | fault _ => rfl
    | refused _ => rfl

/-- A stopped core is the end of its run, whatever the fuel. -/
theorem runWithFuel_stopped {s : State} (h : s.stopped = true) (fuel : Nat) : runWithFuel fuel s = some s.observe := by
  cases fuel <;> simp [runWithFuel, h]

/-- A core that has not stopped spends one unit of fuel on its step. -/
theorem runWithFuel_step {s t : State} (hs : s.stopped = false) (h : step s = .next t) (fuel : Nat) :
    runWithFuel (fuel + 1) s = runWithFuel fuel t := by
  simp [runWithFuel, hs, h]

/-- The core has stopped exactly in Halted and in Faulted. -/
theorem stopped_iff (s : State) : s.stopped = true ↔ s.run = .halted ∨ ∃ r, s.run = .faulted r := by
  cases h : s.run <;> simp [State.stopped, h]

/-- A Running core whose every cell holds the RET byte steps to the address that byte names, with memory as it was. -/
theorem step_of_ret_everywhere (s : State) (hr : s.run = .running) (hm : s.cfg.opcodeMap.wf = true)
    (h : ∀ a, s.memRead a = s.cfg.opcodeMap.ret) :
    step s = .next (s.spUp.setPc s.cfg.opcodeMap.ret) := by
  have hd : decodeFetched s.cfg.opcodeMap s.fetch.op s.fetch.opA s.fetch.opB = .ok .ret := by
    rcases decodeFetched_cases s.cfg.opcodeMap s.fetch.op s.fetch.opA s.fetch.opB with ⟨i, hi, hop⟩ | ⟨-, hn⟩
    · have hc := OpcodeMap.wf_counts hm
      have hne := (OpcodeMap.wf_parts hm).1
      have hret : opcodeOf s.cfg.opcodeMap i = s.cfg.opcodeMap.ret := hop.trans (h s.pc)
      have hi' : i = .ret := by
        cases i <;> simp only [opcodeOf] at hret
        case ret => rfl
        case hlt => simp [OpcodeMap.bytes, hret] at hne
        all_goals
          rw [hret] at hc
          omega
      rw [hi, hi']
    · exact absurd (by rw [fetch_op, h]; simp [OpcodeMap.bytes]) hn
  simp only [step, hr, hd, exec, execRet, h]

/-- R120's example: with 0x11, or whatever byte is RET's, in every cell, the run is infinite. -/
theorem ret_everywhere_runs_forever (s : State) (hr : s.run = .running) (hm : s.cfg.opcodeMap.wf = true)
    (h : ∀ a, s.memRead a = s.cfg.opcodeMap.ret) : RunsForever s := by
  intro n
  induction n generalizing s with
  | zero => exact ⟨s, rfl, hr⟩
  | succ n ih =>
    rw [after_succ_of_step (step_of_ret_everywhere s hr hm h)]
    exact ih (s.spUp.setPc s.cfg.opcodeMap.ret) hr hm h

end Sys2Proof.Machine
end

