-- ==== Sys2Proof/Tests/Slice0.lean ====
section
/-! SUPPORT. Tests of one step each. Expected results are the vectors of spec/95_test_vectors.md (named in each comment) or
are written out by hand from the rule named. Then one witness for each statement that has hypotheses. -/

namespace Sys2Proof.Tests

open Sys2Proof Sys2Proof.Machine

/-- A Running core with these bytes placed from `pc` up, wrapping, and everything else as after `init()`. -/
def place : State → Byte → List Byte → State
  | s, _, [] => s
  | s, a, b :: bs => place (s.memWrite a b) (a + 1) bs

def core (pc : Byte) (bytes : List Byte) : State :=
  place { State.reset with pc := pc, run := .running } pc bytes

/-- The outcome is a next state of which `p` holds. -/
def next (o : Host.Outcome State Fault Refusal) (p : State → Bool) : Bool :=
  match o with
  | .next t => p t
  | .fault _ => false
  | .refused _ => false

/-- The instruction decoded from three fetched bytes under the default map. -/
def dec (op a b : Byte) : Option Instr :=
  match decodeFetched historicalMap op a b with
  | .ok i => some i
  | .error _ => none

/-! ## WellFormed: every check refuses something -/

theorem test_wf_accepts_top_register : Instr.wf (.add 7 7) = true := by decide
theorem test_wf_refuses_ldi_R8 : Instr.wf (.ldi 8 0) = false := by decide
theorem test_wf_refuses_add_opA : Instr.wf (.add 8 0) = false := by decide
theorem test_wf_refuses_mul_opB : Instr.wf (.mul 0 255) = false := by decide
theorem test_wf_refuses_cmp_opB : Instr.wf (.cmp 1 0x10) = false := by decide
theorem test_wf_refuses_prn : Instr.wf (.prn 8) = false := by decide
theorem test_wf_refuses_push : Instr.wf (.push 9) = false := by decide
theorem test_wf_refuses_pop : Instr.wf (.pop 0x80) = false := by decide
theorem test_wf_refuses_call : Instr.wf (.call 0x0C) = false := by decide
theorem test_map_accepts_historical : historicalMap.wf = true := by decide
-- R86: two equal bytes; a wrong operand count; an ALU operation without bit 5; bit 5 elsewhere; bits 7-6 = 0b11
theorem test_map_refuses_equal_bytes : { historicalMap with mul := 0xA0 }.wf = false := by decide
theorem test_map_refuses_wrong_count : { historicalMap with ret := 0x51 }.wf = false := by decide
theorem test_map_refuses_alu_without_bit5 : { historicalMap with add := 0x80 }.wf = false := by decide
theorem test_map_refuses_bit5_elsewhere : { historicalMap with hlt := 0x21 }.wf = false := by decide
theorem test_map_refuses_count_three : { historicalMap with ldi := 0xC2 }.wf = false := by decide
theorem test_memory_refuses_falling_addresses : Memory.wf [(5, 1), (4, 1)] = false := by decide
theorem test_memory_refuses_address_256 : Memory.wf [(256, 1)] = false := by decide
theorem test_memory_refuses_a_listed_zero : Memory.wf [(3, 0)] = false := by decide

/-! ## Decoding: the words of 30_encoding.md R84 bit by bit, and the refusals of 95_test_vectors.md 2.1 -/

theorem test_decode_ldi : dec 0b10000010 0x00 0x08 = some (.ldi 0x00 0x08) := by decide
theorem test_decode_add : dec 0b10100000 0x00 0x01 = some (.add 0x00 0x01) := by decide
theorem test_decode_mul : dec 0b10100010 0x00 0x01 = some (.mul 0x00 0x01) := by decide
theorem test_decode_prn : dec 0b01000111 0x07 0x55 = some (.prn 0x07) := by decide
theorem test_decode_push : dec 0b01000101 0x02 0x55 = some (.push 0x02) := by decide
theorem test_decode_pop : dec 0b01000110 0x03 0x55 = some (.pop 0x03) := by decide
theorem test_decode_call : dec 0b01010000 0x01 0x55 = some (.call 0x01) := by decide
theorem test_decode_ret : dec 0b00010001 0xFF 0xFF = some .ret := by decide
theorem test_decode_cmp : dec 0b10100111 0x01 0x10 = some (.cmp 0x01 0x10) := by decide
theorem test_decode_hlt : dec 0b00000001 0x09 0x09 = some .hlt := by decide
theorem test_decode_refuses_neighbours :
    [0x00, 0x02, 0x92, 0xC2, 0xFF, 0xA1, 0x54, 0x13].map (fun op => dec op 0 0) = List.replicate 8 none := by decide
-- the table's numbering: byte 1 in bits 15..8, byte 2 in bits 23..16; bits above nbits are 0
theorem test_table_word_layout : decodeTableWord 24 0x080382 = some (.ldi 0x03 0x08) := by decide
theorem test_table_word_short : decodeTableWord 8 0xFFFF47 = some (.prn 0x00) := by decide
theorem test_placed_word_runs :
    next (step (State.reset.withFetchWord 24 0x080382)) (fun t => t.readReg 3 == 0x08 && t.pc == 3) = true := by decide

/-! ## One step of each instruction -/

-- L4: an LDI at 0xFE takes its immediate from address 0x00
theorem test_ldi_wraps_at_the_top :
    next (step (core 0xFE [0x82, 0x02, 0x5A])) (fun t => t.readReg 2 == 0x5A && t.pc == 0x01) = true := by decide
-- L5
theorem test_ldi_illegal_register :
    next (step (core 0x00 [0x82, 0x08, 0x01]))
      (fun t => t.run == .faulted ⟨.illegalRegister, 0x00, 0x82, 0x08⟩ && t.x == State.reset.x && t.pc == 0) = true := by
  decide
-- A4, with the source register kept
theorem test_add_wraps :
    next (step (((core 0 [0xA0, 0, 1]).writeReg 0 0xC8).writeReg 1 0x64))
      (fun t => t.readReg 0 == 0x2C && t.readReg 1 == 0x64 && t.pc == 3) = true := by decide
-- A8: opA is checked first
theorem test_add_checks_opA_first :
    next (step (core 0 [0xA0, 0x08, 0x09])) (fun t => t.run == .faulted ⟨.illegalRegister, 0, 0xA0, 0x08⟩) = true := by decide
-- M3
theorem test_mul_keeps_the_low_byte :
    next (step (((core 0 [0xA2, 0, 1]).writeReg 0 0xFF).writeReg 1 0xFF)) (fun t => t.readReg 0 == 0x01) = true := by decide
-- M7: both operands are the destination
theorem test_mul_squares :
    next (step ((core 0 [0xA2, 3, 3]).writeReg 3 0x0F)) (fun t => t.readReg 3 == 0xE1) = true := by decide
-- C7, cmpClearsFlags = true and false
theorem test_cmp_clears_a_stale_flag :
    next (step ((((core 0 [0xA7, 0, 1]).writeReg 0 7).writeReg 1 5).setFlags ⟨false, true, false⟩))
      (fun t => t.fl == ⟨false, false, true⟩) = true := by decide
theorem test_cmp_legacy_keeps_a_stale_flag :
    next (step { (((core 0 [0xA7, 0, 1]).writeReg 0 7).writeReg 1 5).setFlags ⟨false, true, false⟩ with
        cfg := ⟨false, historicalMap⟩ })
      (fun t => t.fl == ⟨false, true, true⟩) = true := by decide
-- P-2
theorem test_prn_appends :
    next (step (((core 0 [0x47, 0]).writeReg 0 0xFF).emit 8)) (fun t => t.out == [8, 255] && t.pc == 2) = true := by decide
-- P-3
theorem test_prn_R7 : next (step (core 0 [0x47, 7])) (fun t => t.out == [244]) = true := by decide
-- S2: SP wraps below 0x00
theorem test_push_wraps :
    next (step (((core 0x10 [0x45, 0]).writeReg 0 0x2A).writeReg 7 0x00))
      (fun t => t.sp == 0xFF && t.memRead 0xFF == 0x2A && t.pc == 0x12) = true := by decide
-- S3: PUSH R7 stores the decremented SP
theorem test_push_R7 : next (step (core 0 [0x45, 7])) (fun t => t.sp == 0xF3 && t.memRead 0xF3 == 0xF3) = true := by decide
-- S4
theorem test_pop_keeps_the_cell :
    next (step (((core 0 [0x46, 1]).writeReg 7 0xF3).memWrite 0xF3 0x2A))
      (fun t => t.readReg 1 == 0x2A && t.sp == 0xF4 && t.memRead 0xF3 == 0x2A) = true := by decide
-- S6: POP R7
theorem test_pop_R7 :
    next (step (((core 0 [0x46, 7]).writeReg 7 0xF3).memWrite 0xF3 0x20)) (fun t => t.sp == 0x21) = true := by decide
-- K3: CALL at 0xFF, its operand at 0x00
theorem test_call_at_the_top :
    next (step ((core 0xFF [0x50, 0x02]).writeReg 2 0x10))
      (fun t => t.memRead 0xF3 == 0x01 && t.sp == 0xF3 && t.pc == 0x10) = true := by decide
-- K4: CALL R7 goes to the decremented SP
theorem test_call_R7 :
    next (step (core 0x10 [0x50, 7])) (fun t => t.memRead 0xF3 == 0x12 && t.pc == 0xF3) = true := by decide
-- R2
theorem test_ret_wraps :
    next (step (((core 0x20 [0x11]).writeReg 7 0xFF).memWrite 0xFF 0x40)) (fun t => t.pc == 0x40 && t.sp == 0x00) = true := by
  decide
-- R4: the bytes after RET are not consulted
theorem test_ret_ignores_what_follows :
    next (step (((core 0x20 [0x11, 0xFF, 0xFF]).writeReg 7 0xF3).memWrite 0xF3 0x08))
      (fun t => t.pc == 0x08 && t.run == .running) = true := by decide
-- H2
theorem test_hlt_wraps_the_pc : next (step (core 0xFF [0x01])) (fun t => t.run == .halted && t.pc == 0) = true := by decide
-- H3
theorem test_hlt_ignores_what_follows :
    next (step (core 0 [0x01, 0x09, 0x09])) (fun t => t.run == .halted && t.pc == 1) = true := by decide

/-! ## Faults, load and the host's side -/

-- F1
theorem test_fault_keeps_the_output :
    next (step ((core 5 [0x00]).emit 5)) (fun t => t.run == .faulted ⟨.illegalOpcode, 5, 0, 0⟩ && t.pc == 5 && t.out == [5]) =
      true := by decide
-- F3, F5
theorem test_fault_on_opB :
    next (step (core 0 [0xA7, 0x01, 0x10])) (fun t => t.run == .faulted ⟨.illegalRegister, 0, 0xA7, 0x10⟩) = true := by decide
theorem test_fault_opcode_before_register :
    next (step (core 0 [0xC0, 0x09, 0x09])) (fun t => t.run == .faulted ⟨.illegalOpcode, 0, 0xC0, 0xC0⟩) = true := by decide
-- R57: the bytes of program P1 land from address 0
theorem test_load_places_the_program :
    next (State.reset.load [0x82, 0x00, 0x08]) (fun t => t.memRead 0 == 0x82 && t.memRead 2 == 0x08 && t.memRead 3 == 0) =
      true := by decide
theorem test_second_load_refused : (core 0 []).load [1] = .refused .loadNotLegal := rfl
theorem test_init_leaves_halted :
    next (transact .init ((core 0 [0x01]).setRun .halted)) (fun t => t.run == .awaitingLoad && t.memRead 0 == 0) = true := by
  decide
theorem test_fault_codes : [FaultCause.illegalOpcode, .illegalRegister].map FaultCause.code = [1, 2] := by decide

/-! ## Witnesses: the hypotheses of each statement can be met, at the edges of their ranges -/

/-- A faulted core, for the statements about stopped states. -/
def faultedCore : State := (core 5 [0x00]).raise .illegalOpcode 0x00 0x00

/-- A core that will CALL R1 to an address that holds RET, and one that will PUSH over its own operand byte. -/
def callCore : State := (place (core 0x06 [0x50, 0x01]) 0x0B [0x11]).writeReg 1 0x0B
def selfPushCore : State := (core 0x10 [0x45, 0x02]).writeReg 7 0x12
def selfCallCore : State := (core 0x10 [0x50, 0x02]).writeReg 7 0x12

/-- PUSH R2 at 0x10 with 0x55 in R2, and the SP given. -/
def pushCore (sp : Byte) : State := ((core 0x10 [0x45, 0x02]).writeReg 2 0x55).writeReg 7 sp

/-- CALL R7 at 0x0F: the return address it stores at its own target is 0x11, the RET byte. -/
def callR7Core : State := core 0x0F [0x50, 0x07]

theorem test_witness_InitAloneLeavesTheStoppedStates :
    ((core 0 []).setRun .halted).run = .halted ∧ (∃ r, faultedCore.run = .faulted r) ∧
      transact .init faultedCore = .next faultedCore.init := ⟨rfl, ⟨_, rfl⟩, rfl⟩
theorem test_witness_LoadWritesTheBytesFromZero :
    ([] : List Byte).length ≤ 256 ∧ (List.replicate 256 (0x01 : Byte)).length ≤ 256 :=
  ⟨Nat.zero_le _, le_of_eq List.length_replicate⟩
theorem test_load_fills_memory :
    next (State.reset.init.load (List.replicate 256 0x01)) (fun t => t.memRead 0xFF == 0x01) = true := by decide +kernel
theorem test_witness_LoadIsRefusedOutsideItsConditions :
    (core 0 []).run ≠ .awaitingLoad ∧ State.reset.run = .awaitingLoad ∧ 256 < (List.replicate 257 (0 : Byte)).length :=
  ⟨by decide, rfl, by rw [List.length_replicate]; omega⟩
theorem test_witness_FirstFetchIsTheFirstLoadedByte :
    next (State.reset.init.load (0x82 :: [0x00, 0x08])) (fun t => t.fetch.op == 0x82) = true := by decide
theorem test_witness_StoppedCoreTakesNoStep :
    ((core 0 []).setRun .halted).run = .halted ∧ faultedCore.run = .faulted ⟨.illegalOpcode, 5, 0, 0⟩ := by decide
theorem test_witness_DecodeOfEncodeIsTheInstruction : historicalMap.wf = true := by decide
theorem test_witness_DecodedBytesAreTheEncoding :
    historicalMap.wf = true ∧ decode historicalMap [0x47, 0x07, 0x01] = .ok (.prn 0x07, [0x01]) := ⟨by decide, rfl⟩
theorem test_witness_LengthIsOperandCountPlusOne : historicalMap.wf = true := by decide
theorem test_witness_DecodeMatchesTheWholeByte : historicalMap.wf = true ∧ (0xFF : Byte) ∉ historicalMap.bytes := by decide
theorem test_witness_BytesOutsideTheFormatAreIgnored :
    historicalMap.wf = true ∧ (0x11 : Byte).extractLsb' 6 2 = 0 ∧ (0x50 : Byte).extractLsb' 6 2 = 1 := by decide
theorem test_witness_AllButTenOpcodeBytesAreUnrecognized :
    (0xFF : Byte).extractLsb' 6 2 = 3 ∧ (0x00 : Byte) ∉ historicalMap.bytes := by decide
theorem test_witness_FetchReadsThreeBytesAndWraps : (core 0xFE []).pc = 0xFE ∧ (core 0xFF []).pc = 0xFF := by decide
theorem test_witness_StepRunsTheDecodedInstruction :
    (core 0xFE [0x82, 0x02, 0x5A]).run = .running ∧
      decodeFetched (core 0xFE [0x82, 0x02, 0x5A]).cfg.opcodeMap ((core 0xFE [0x82, 0x02, 0x5A]).memRead 0xFE)
        ((core 0xFE [0x82, 0x02, 0x5A]).memRead (0xFE + 1)) ((core 0xFE [0x82, 0x02, 0x5A]).memRead (0xFE + 2)) =
        .ok (.ldi 0x02 0x5A) := ⟨rfl, rfl⟩
theorem test_witness_RunningCoreAlwaysSteps : (core 0 []).run = .running := by decide
theorem test_witness_DefaultAdvanceMovesThePc :
    (core 0 []).cfg.opcodeMap.wf = true ∧ Instr.wf (.ldi 7 0xFF) = true ∧ (∀ a, Instr.ldi 7 0xFF ≠ .call a) ∧
      Instr.ldi 7 0xFF ≠ .ret := ⟨by decide, by decide, by simp, by simp⟩
theorem test_witness_OnlyHltHalts :
    (core 0xFF [0x01]).cfg.opcodeMap.wf = true ∧ next (step (core 0xFF [0x01])) (fun t => t.run == .halted) = true ∧
      next (step (core 0 [0x11])) (fun t => t.run == .running) = true := by decide
theorem test_witness_FaultsArePrecise :
    next (step (core 5 [0x00])) (fun t => t.run == .faulted ⟨.illegalOpcode, 5, 0, 0⟩) = true := by decide
theorem test_witness_UnrecognizedOpcodeFaults :
    (core 0 [0xFF]).run = .running ∧ (core 0 [0xFF]).memRead (core 0 [0xFF]).pc ∉ (core 0 [0xFF]).cfg.opcodeMap.bytes := by
  decide
theorem test_witness_FirstIllegalRegisterByteFaults :
    (Instr.add 7 8).regOperands.find? (fun c => decide (8 ≤ c.toNat)) = some 8 ∧
      (Instr.add 8 9).regOperands.find? (fun c => decide (8 ≤ c.toNat)) = some 8 ∧
      exec .ret (core 0 []) = .next ((core 0 []).spUp.setPc ((core 0 []).memRead (core 0 []).sp)) ∧
      ∀ r, (core 0 []).run ≠ .faulted r := ⟨by decide, by decide, rfl, fun r => by simp [core, place]⟩
theorem test_witness_FaultPriorityIsOpcodeThenFirstOperand :
    next (step (core 0 [0xC0, 0x09, 0x09])) (fun t => t.run == .faulted ⟨.illegalOpcode, 0, 0xC0, 0xC0⟩) = true ∧
      next (step (core 0 [0xA0, 0x08, 0x09])) (fun t => t.run == .faulted ⟨.illegalRegister, 0, 0xA0, 0x08⟩) = true ∧
      next (step (core 0 [0xA0, 0x07, 0x08])) (fun t => t.run == .faulted ⟨.illegalRegister, 0, 0xA0, 0x08⟩) = true ∧
      8 ≤ ((core 0 [0xA0, 0x08, 0x09]).memRead (0 + 1)).toNat ∧ ((core 0 [0xA0, 0x07, 0x08]).memRead (0 + 1)).toNat < 8 := by
  decide
theorem test_witness_NothingElseFaults :
    (core 0 [0x82, 7, 0xFF]).run = .running ∧ Instr.wf (.ldi 7 0xFF) = true ∧
      decodeFetched (core 0 [0x82, 7, 0xFF]).cfg.opcodeMap (core 0 [0x82, 7, 0xFF]).fetch.op
        (core 0 [0x82, 7, 0xFF]).fetch.opA (core 0 [0x82, 7, 0xFF]).fetch.opB = .ok (.ldi 7 0xFF) :=
  ⟨rfl, by decide, rfl⟩
theorem test_witness_WriteChangesItsCellAlone : Memory.wf (core 0xFF [0x01]).mem = true := by decide
theorem test_witness_CanonicalMemoryIsItsReads :
    Memory.wf [(0, 1), (255, 2)] = true ∧ Memory.wf (Memory.write [(255, 2)] 0 1) = true ∧
      ∀ a : Byte, Memory.read [(0, 1), (255, 2)] a.toNat = Memory.read (Memory.write [(255, 2)] 0 1) a.toNat :=
  ⟨by decide, by decide, fun _ => rfl⟩
theorem test_witness_StoresKeepLatchedOperands :
    (selfPushCore.memRead (selfPushCore.pc + 1)).toNat < 8 ∧ selfPushCore.run = .running ∧
      selfPushCore.cfg.opcodeMap.wf = true ∧ Memory.wf selfPushCore.mem = true ∧
      selfPushCore.memRead selfPushCore.pc = selfPushCore.cfg.opcodeMap.push ∧
      selfPushCore.sp - 1 = selfPushCore.pc + 1 := by decide
/-- For the same statement: CALL R2 that stores on its own operand byte. -/
theorem test_witness_CallStoresOverItsOperand :
    (selfCallCore.memRead (selfCallCore.pc + 1)).toNat < 8 ∧ selfCallCore.run = .running ∧
      selfCallCore.cfg.opcodeMap.wf = true ∧ Memory.wf selfCallCore.mem = true ∧
      selfCallCore.memRead selfCallCore.pc = selfCallCore.cfg.opcodeMap.call ∧
      selfCallCore.sp - 1 = selfCallCore.pc + 1 := by decide
/-- For the same statement: the store lands on the next opcode byte, on the next first operand and on the next second
operand (PUSH R2 with SP three, four and five past its opcode), and on the target's opcode byte (CALL R7). -/
theorem test_witness_StoreReachesTheNextFetch :
    (pushCore 0x13).sp - 1 = (pushCore 0x13).pc + 2 ∧
      next (step (pushCore 0x13)) (fun t => t.fetch == ⟨0x55, 0x00, 0x00⟩) = true ∧
      next (step (pushCore 0x14)) (fun t => t.fetch == ⟨0x00, 0x55, 0x00⟩) = true ∧
      next (step (pushCore 0x15)) (fun t => t.fetch == ⟨0x00, 0x00, 0x55⟩) = true ∧
      next (step callR7Core) (fun t => t.pc == callR7Core.sp - 1 && t.fetch.op == 0x11) = true := by decide
/-- The hypotheses of the ten result statements, at the last legal and the first illegal register byte:
LdiLoadsTheImmediate, AddWritesTheWrappedSum, MulWritesTheLowByteOfTheProduct, CmpSetsTheFlagsOfTheUnsignedOrder,
PrnEmitsTheRegister, PushStoresAtTheDecrementedSp, PopLoadsAndIncrementsSp, CallPushesTheReturnAddressAndJumps and
HltHaltsPastItsByte (RetPopsThePc has none). -/
theorem test_witness_instruction_results :
    (core 0 []).cfg.opcodeMap.wf = true ∧ Memory.wf (core 0 []).mem = true ∧ (7 : Byte).toNat < 8 ∧
      8 ≤ (8 : Byte).toNat ∧ (core 0 []).cfg.cmpClearsFlags = true := by decide
theorem test_witness_RegistersOutsideTheWriteTableAreUnchanged :
    next (exec (.ldi 0 5) (core 0 [])) (fun t => t.readReg 7 == 0xF4) = true ∧
      (7 : RegIdx).val ∉ registersWritten (.ldi 0 5) := by decide
theorem test_witness_CellsOutsideTheStoreAreUnchanged :
    Memory.wf (core 0 []).mem = true ∧ next (exec (.push 0) (core 0 [])) (fun _ => true) = true ∧
      storedAddress (.push 0) (core 0 []) = some 0xF3 ∧ (0xF4 : Byte) ≠ 0xF3 ∧ storedAddress (.pop 0) (core 0 []) = none := by
  decide
theorem test_witness_FlagsBelongToCompareAlone :
    (∀ a b, Instr.hlt ≠ .cmp a b) ∧ next (exec .hlt (core 0 [])) (fun _ => true) = true ∧
      (core 0 []).cfg.cmpClearsFlags = true ∧ (7 : Byte).toNat < 8 ∧
      next (exec (.cmp 7 7) (core 0 [])) (fun _ => true) = true := ⟨by simp, by decide, by decide, by decide, by decide⟩
theorem test_witness_OutputOnlyGrowsByPrn :
    next (exec (.prn 7) (core 0 [])) (fun t => t.out == [0xF4]) = true ∧ (∀ a, Instr.ret ≠ .prn a) := ⟨by decide, by simp⟩
theorem test_witness_ParametersNeverChange :
    transact .init (core 0 []) = .next (core 0 []).init ∧ next (transact .step (core 0 [0x01])) (fun _ => true) = true ∧
      next (transact (.load [0x01]) State.reset) (fun _ => true) = true := ⟨rfl, by decide, by decide⟩
/-- For PushThenPopRestores (R7) and PushThenPopCopies (R6 to R0). -/
theorem test_witness_PushThenPop :
    (7 : Byte).toNat < 8 ∧ (6 : Byte).toNat < 7 ∧ (0 : Byte).toNat < 7 ∧ Memory.wf (core 0 []).mem = true := by decide
theorem test_witness_CallThenReturnResumes :
    callCore.run = .running ∧ callCore.cfg.opcodeMap.wf = true ∧ Memory.wf callCore.mem = true ∧
      callCore.memRead callCore.pc = callCore.cfg.opcodeMap.call ∧ (callCore.memRead (callCore.pc + 1)).toNat < 8 ∧
      next (step callCore) (fun s1 => s1.memRead s1.pc == s1.cfg.opcodeMap.ret) = true := by decide
/-- For the same statement: CALL R7. -/
theorem test_witness_CallR7ThenReturn :
    callR7Core.run = .running ∧ callR7Core.cfg.opcodeMap.wf = true ∧ Memory.wf callR7Core.mem = true ∧
      callR7Core.memRead callR7Core.pc = callR7Core.cfg.opcodeMap.call ∧
      callR7Core.memRead (callR7Core.pc + 1) = 7 ∧
      next (step callR7Core) (fun s1 => s1.memRead s1.pc == s1.cfg.opcodeMap.ret) = true := by decide
theorem test_witness_OutputLinesAreUnsignedDecimal :
    0 < ((core 0 []).emit 0xFF).out.length ∧ (((core 0 []).emit 0x00).emit 0xFF).out = [0x00, 0xFF] := by decide
theorem test_witness_DumpIsGivenAfterTheStop :
    ((core 0 []).setRun .halted).run = .halted ∧ (∃ r, faultedCore.run = .faulted r) ∧ (core 0 []).run = .running ∧
      State.reset.run = .awaitingLoad := ⟨rfl, ⟨_, rfl⟩, rfl, rfl⟩
theorem test_witness_ExitStatusTellsHaltFromFault :
    ((core 0 []).setRun .halted).run = .halted ∧
      ((core 0 [0x82, 8]).raise .illegalRegister 0x82 8).run = .faulted ⟨.illegalRegister, 0, 0x82, 8⟩ ∧
      (core 0 []).run = .running ∧ State.reset.run = .awaitingLoad := by decide
theorem test_witness_ResetMeetsTheInvariant : (Config.mk false historicalMap).opcodeMap.wf = true := by decide
theorem test_witness_StepKeepsTheInvariant :
    (core 0 [0x00]).Inv ∧ next (step (core 0 [0x00])) (fun t => t.recordOk) = true := by decide
theorem test_witness_ReachableStatesMeetTheInvariant :
    Reachable { State.reset with cfg := ⟨false, historicalMap⟩ } ∧
      ∃ t, State.reset.load [0x01] = .next t ∧ Reachable t ∧ t.run = .running :=
  ⟨.launch _ (by decide), _, rfl, .move _ _ (.load [0x01]) (.launch defaultConfig (by decide)) rfl, rfl⟩

theorem test_witness_TransactionKeepsTheInvariant :
    State.reset.Inv ∧ next (transact (.load [0x01]) State.reset) (fun t => t.recordOk) = true ∧
      next (transact .init faultedCore) (fun t => t.launchOk) = true ∧ faultedCore.Inv := by decide

/-! ## Runs -/

/-- HLT loaded: its run has states 0 and 1, the second Halted, and no third. -/
theorem test_witness_RunIsTheStatesUnderRepeatedStep :
    (∃ s, launch defaultConfig [0x01] = .next s) ∧
      (runState defaultConfig [0x01] 1).map State.run = some .halted ∧ runState defaultConfig [0x01] 2 = none :=
  ⟨⟨_, rfl⟩, by decide, by decide⟩
-- P7's ending: the output stays on the faulted path; U14: no fuel, no result
theorem test_witness_RunEndsHaltedOrFaultedWithItsOutput :
    (runWithFuel 1 ((core 5 [0x00]).emit 5)).map (fun o => (o.final.run, o.out)) =
      some (.faulted ⟨.illegalOpcode, 5, 0, 0⟩, [5]) ∧
    runWithFuel 0 ((core 5 [0x00]).emit 5) = none ∧
    (runWithFuel 1 (core 5 [0x01])).map (fun o => o.final.run) = some .halted := by decide

/-- RET in every cell. -/
def retCore : State := { core 0 [] with mem := Memory.writeFrom [] 0 (List.replicate 256 0x11) }

theorem retCore_reads_ret (a : Byte) : retCore.memRead a = 0x11 := by
  have hr := Memory.read_writeFrom (List.replicate 256 0x11) [] 0 List.Pairwise.nil a.toNat
  have ha := a.isLt
  rw [if_pos (by rw [List.length_replicate]; omega)] at hr
  rw [State.memRead, retCore, hr, List.getD_eq_getElem?_getD, List.getElem?_replicate, if_pos (by omega)]
  rfl

/-- For EveryRunEndsOrIsInfinite: a Running core whose run ends, and R120's example of one whose run is infinite. -/
theorem test_witness_EveryRunEndsOrIsInfinite :
    ((core 5 [0x01]).run = .running ∧ (runWithFuel 1 (core 5 [0x01])).isSome = true) ∧
      retCore.run = .running ∧ RunsForever retCore :=
  ⟨by decide, rfl, ret_everywhere_runs_forever retCore rfl (by decide) retCore_reads_ret⟩

end Sys2Proof.Tests
end

/-! The flags (10_state.md rule R26). No instruction but CMP reads or writes them: such an instruction commutes with
`State.setFlags`, and both halves of the claim follow from that one fact. -/

namespace Sys2Proof.Machine

/-- An outcome with its next state, if it has one, changed by `g`. -/
def mapNext (g : State → State) : Host.Outcome State Fault Refusal → Host.Outcome State Fault Refusal
  | .next t => .next (g t)
  | .fault r => .fault r
  | .refused r => .refused r

@[simp] theorem mapNext_next (g : State → State) (t : State) : mapNext g (.next t) = .next (g t) := rfl

/-- The operand check commutes with any change of the state that the fault and what follows the check commute with. -/
theorem withReg_mapNext {g : State → State} {op b : Byte} {s : State}
    {k k' : RegIdx → Host.Outcome State Fault Refusal}
    (hraise : (g s).raise .illegalRegister op b = g (s.raise .illegalRegister op b))
    (hk : ∀ r, k' r = mapNext g (k r)) : withReg op b (g s) k' = mapNext g (withReg op b s k) := by
  rcases withReg_cases op b s k with ⟨hb, h⟩ | ⟨hb, h⟩
  · rw [h, withReg_legal op b (g s) k' hb, hk]
  · rw [h, withReg_illegal op b (g s) k' hb, hraise, mapNext_next]

/-- The check of one register operand does not look at the flags. -/
theorem withReg_setFlags {f : Flags} {op b : Byte} {s : State} {k k' : RegIdx → Host.Outcome State Fault Refusal}
    (hk : ∀ r, k' r = mapNext (·.setFlags f) (k r)) :
    withReg op b (s.setFlags f) k' = mapNext (·.setFlags f) (withReg op b s k) :=
  withReg_mapNext (g := (·.setFlags f)) rfl hk

/-- The check of two register operands does not look at the flags. -/
theorem withRegs_setFlags {f : Flags} {op a b : Byte} {s : State}
    {k k' : RegIdx → RegIdx → Host.Outcome State Fault Refusal}
    (hk : ∀ rA rB, k' rA rB = mapNext (·.setFlags f) (k rA rB)) :
    withRegs op a b (s.setFlags f) k' = mapNext (·.setFlags f) (withRegs op a b s k) :=
  withReg_setFlags fun rA => withReg_setFlags (hk rA)

/-- Every instruction but CMP carries the flags along: run with other flags, it does the same (R26). -/
theorem exec_setFlags (i : Instr) (hi : ∀ a b, i ≠ .cmp a b) (s : State) (f : Flags) :
    exec i (s.setFlags f) = mapNext (·.setFlags f) (exec i s) := by
  cases i with
  | ldi rA imm8 => exact withReg_setFlags fun _ => rfl
  | add rA rB => exact withRegs_setFlags fun _ _ => rfl
  | mul rA rB => exact withRegs_setFlags fun _ _ => rfl
  | prn rA => exact withReg_setFlags fun _ => rfl
  | push rA => exact withReg_setFlags fun _ => rfl
  | pop rA => exact withReg_setFlags fun _ => rfl
  | call rA => exact withReg_setFlags fun _ => rfl
  | ret => rfl
  | cmp rA rB => exact absurd rfl (hi rA rB)
  | hlt => rfl

/-- Every instruction but CMP leaves the flags as they are: it carries along the very flags it starts with. -/
theorem exec_keeps_flags {i : Instr} (hi : ∀ a b, i ≠ .cmp a b) {s t : State} (h : exec i s = .next t) :
    t.fl = s.fl := by
  have hcarry : exec i s = mapNext (·.setFlags s.fl) (exec i s) := exec_setFlags i hi s s.fl
  rw [h, mapNext_next] at hcarry
  injection hcarry with ht
  rw [ht, setFlags_fl]

/-- CMP of two legal registers sets the flags of their comparison (R134). -/
theorem execCmp_legal_fl {a b : Byte} {s t : State} (ha : a.toNat < 8) (hb : b.toNat < 8)
    (h : exec (.cmp a b) s = .next t) :
    t.fl = compareFlags s.cfg.cmpClearsFlags (s.readReg ⟨a.toNat, ha⟩) (s.readReg ⟨b.toNat, hb⟩) s.fl := by
  rw [exec, execCmp, withRegs_legal _ _ _ _ _ ha hb] at h
  injection h with ht
  rw [← ht, advance_fl, setFlags_fl]

/-- A comparison that clears first leaves exactly one flag set, by the trichotomy of the unsigned order. -/
theorem compareFlags_clearing_count (a b : Byte) (f : Flags) :
    [(compareFlags true a b f).E, (compareFlags true a b f).L, (compareFlags true a b f).G].count true = 1 := by
  rcases Nat.lt_trichotomy a.toNat b.toNat with hlt | heq | hgt
  · have hne : a ≠ b := fun hab => absurd (congrArg BitVec.toNat hab) (Nat.ne_of_lt hlt)
    simp [compareFlags, Flags.cleared, hlt, hne, Nat.not_lt.mpr (Nat.le_of_lt hlt)]
  · simp [compareFlags, Flags.cleared, BitVec.eq_of_toNat_eq heq]
  · have hne : a ≠ b := fun hab => absurd (congrArg BitVec.toNat hab) (Nat.ne_of_gt hgt)
    simp [compareFlags, Flags.cleared, hgt, hne, Nat.not_lt.mpr (Nat.le_of_lt hgt)]

/-- Settles O41: an instruction other than CMP commutes with `setFlags`, and a clearing CMP sets one of three. -/
theorem flagsBelongToCompareAlone : Obligations.FlagsBelongToCompareAlone := by
  refine ⟨rfl, ?_, ?_, ?_⟩
  · exact fun s t i hi h => exec_keeps_flags hi h
  · intro s t i f h hi
    have hcarry := exec_setFlags i hi s f
    rw [h] at hcarry
    exact hcarry
  · intro s t a b hclears ha hb h
    rw [execCmp_legal_fl ha hb h, hclears]
    exact compareFlags_clearing_count _ _ _

end Sys2Proof.Machine

/-! Memory (20_memory.md rules R51, R52 and R57): a read of the state after a write, and after the load that follows
`init()`. -/

namespace Sys2Proof.Machine

/-- READ AFTER WRITE at the state, over canonical memory: byte addresses that differ name different cells. -/
theorem memRead_memWrite {s : State} (hm : Memory.wf s.mem = true) (a v b : Byte) :
    (s.memWrite a v).memRead b = if b = a then v else s.memRead b := by
  obtain ⟨hrising, -⟩ := (Memory.wf_iff s.mem).mp hm
  have hcell : a.toNat = b.toNat ↔ b = a := BitVec.toNat_inj.trans eq_comm
  simp only [State.memRead, memWrite_mem, Memory.read_write s.mem hrising, hcell]

/-- A program written over empty memory reads as its bytes from address 0, and as unlisted past its end. -/
theorem Memory.read_writeFrom_nil (bytes : List Byte) (b : Nat) :
    Memory.read (Memory.writeFrom [] 0 bytes) b = if b < bytes.length then bytes.getD b 0 else unlistedByte := by
  simp [Memory.read_writeFrom bytes [] 0 List.Pairwise.nil b, Memory.read]

/-- Settles O25: the cell by read after write; `memWrite` touches no other field. -/
theorem writeChangesItsCellAlone : Obligations.WriteChangesItsCellAlone := by
  intro s a v hm
  exact ⟨memRead_memWrite hm a v, memWrite_x s a v, memWrite_pc s a v, memWrite_fl s a v, memWrite_run s a v,
    memWrite_out s a v, memWrite_cfg s a v⟩

/-- Settles O3: `init()` waits for `load` with empty memory, so the load is legal and the program is all it holds. -/
theorem loadWritesTheBytesFromZero : Obligations.LoadWritesTheBytesFromZero := by
  intro s bytes hlen
  exact ⟨_, load_legal s.init bytes (init_run s) hlen, fun a => Memory.read_writeFrom_nil bytes a.toNat,
    rfl, rfl, rfl, rfl, init_cfg s, rfl⟩

end Sys2Proof.Machine

/-! The length of an encoding (30_encoding.md rules R80 and R84): the operand bytes of an instruction are as many as its
opcode byte counts. -/

namespace Sys2Proof.Machine

/-- Under a map that meets R86, the top two bits of the opcode byte count the operand bytes (R80). -/
theorem operandBytes_length {m : OpcodeMap} (hm : m.wf = true) (i : Instr) :
    (operandBytes i).length = operandCount (opcodeOf m i) := by
  obtain ⟨⟨hldi, hadd, hmul, hcmp⟩, ⟨hprn, hpush, hpop, hcall⟩, hret, hhlt⟩ := OpcodeMap.wf_counts hm
  cases i with
  | ldi rA imm8 => exact hldi.symm
  | add rA rB => exact hadd.symm
  | mul rA rB => exact hmul.symm
  | prn rA => exact hprn.symm
  | push rA => exact hpush.symm
  | pop rA => exact hpop.symm
  | call rA => exact hcall.symm
  | ret => exact hret.symm
  | cmp rA rB => exact hcmp.symm
  | hlt => exact hhlt.symm

/-- No instruction has more than two operand bytes (R82). -/
theorem operandBytes_length_le_two (i : Instr) : (operandBytes i).length ≤ 2 := by
  cases i <;> simp [operandBytes]

/-- An encoding is the opcode byte and the operand bytes. -/
theorem encode_length (m : OpcodeMap) (i : Instr) : (encode m i).length = (operandBytes i).length + 1 := rfl

/-- Settles O9: one opcode byte, and the operand bytes it counts, of which there are at most two. -/
theorem lengthIsOperandCountPlusOne : Obligations.LengthIsOperandCountPlusOne := by
  intro m i hm
  have hcount : (operandBytes i).length = ((opcodeOf m i).extractLsb' 6 2).toNat := operandBytes_length hm i
  have hmost := operandBytes_length_le_two i
  rw [encode_length, ← hcount]
  exact ⟨rfl, by omega, by omega⟩

end Sys2Proof.Machine

/-! The stopped core (40_execution_cycle.md rule R118): a step needs a Running core and a load one that waits for it. -/

namespace Sys2Proof.Machine

/-- A stopped core neither runs nor waits for a program. -/
theorem run_of_stopped {s : State} (hs : s.run = .halted ∨ ∃ r, s.run = .faulted r) :
    s.run ≠ .running ∧ s.run ≠ .awaitingLoad := by
  rcases hs with hhalted | ⟨r, hfaulted⟩
  · simp [hhalted]
  · simp [hfaulted]

/-- Settles O6: a step or a load that answered would show a run state a stopped core is not in. -/
theorem stoppedCoreTakesNoStep : Obligations.StoppedCoreTakesNoStep := by
  intro s hs
  obtain ⟨hnotRunning, hnotWaiting⟩ := run_of_stopped hs
  refine ⟨fun t hstep => ?_, fun bytes t hload => ?_, s.init, rfl⟩
  · exact hnotRunning (step_next hstep).1
  · exact hnotWaiting (load_next hload).1

end Sys2Proof.Machine

/-! The ALU's arithmetic (41_alu.md rule R136): sum and product modulo 256, and the comparison by the unsigned order. -/

namespace Sys2Proof.Machine

/-- Add is the sum of the unsigned values, wrapped to a byte (R136). -/
theorem aluAdd_toNat (a b : Byte) : (aluAdd a b).toNat = (a.toNat + b.toNat) % 256 :=
  BitVec.toNat_add a b

/-- Multiply is the product of the unsigned values, wrapped to a byte (R136). -/
theorem aluMul_toNat (a b : Byte) : (aluMul a b).toNat = (a.toNat * b.toNat) % 256 :=
  BitVec.toNat_mul a b

/-- A comparison that clears first forgets the flags it finds and sets each by its own relation of the unsigned values:
of the three branches, the order of the two values takes one. -/
theorem compareFlags_clearing (a b : Byte) (f : Flags) :
    compareFlags true a b f =
      { E := decide (a.toNat = b.toNat), L := decide (a.toNat < b.toNat), G := decide (a.toNat > b.toNat) } := by
  have heq_iff : a = b ↔ a.toNat = b.toNat := BitVec.toNat_inj.symm
  rcases Nat.lt_trichotomy a.toNat b.toNat with hlt | heq | hgt
  · simp [compareFlags, Flags.cleared, heq_iff, hlt, Nat.ne_of_lt hlt, Nat.lt_asymm hlt]
  · simp [compareFlags, Flags.cleared, heq_iff, heq]
  · simp [compareFlags, Flags.cleared, heq_iff, hgt, Nat.ne_of_gt hgt, Nat.lt_asymm hgt]

/-- Settles O38: the ALU's two operations on bytes, and its comparison from cleared flags as from any. -/
theorem aluArithmeticWrapsUnsigned : Obligations.AluArithmeticWrapsUnsigned := by
  intro a b
  exact ⟨aluAdd_toNat a b, aluMul_toNat a b, compareFlags_clearing a b Flags.cleared⟩

end Sys2Proof.Machine

/-! Exceptions (60_exceptions.md rules R222 and R224): a step of a Running core faults at decode when the opcode byte is
none of the ten, and an instruction whose register bytes are legal completes. -/

namespace Sys2Proof.Machine

/-- The opcode byte of every instruction is one of the map's ten (R84). -/
theorem opcodeOf_mem_bytes (m : OpcodeMap) (i : Instr) : opcodeOf m i ∈ m.bytes := by
  cases i <;> simp [opcodeOf, OpcodeMap.bytes]

/-- A byte outside the ten decodes to nothing, whatever follows it (R88). -/
theorem decodeFetched_unrecognized {m : OpcodeMap} {op : Byte} (hop : op ∉ m.bytes) (opA opB : Byte) :
    decodeFetched m op opA opB = .error (.unrecognizedOpcode op) := by
  rcases decodeFetched_cases m op opA opB with ⟨i, -, hi⟩ | ⟨herr, -⟩
  · exact absurd (hi ▸ opcodeOf_mem_bytes m i) hop
  · exact herr

/-- The step of a Running core whose bytes decode is the instruction's effect (R117). -/
theorem step_of_decodes {s : State} {i : Instr} (hrun : s.run = .running)
    (hdec : decodeFetched s.cfg.opcodeMap s.fetch.op s.fetch.opA s.fetch.opB = .ok i) : step s = exec i s := by
  simp only [step, hrun, hdec]

/-- The step of a Running core whose opcode byte is none of the ten is the IllegalOpcode fault (R222). -/
theorem step_of_unrecognized {s : State} (hrun : s.run = .running) (hop : s.fetch.op ∉ s.cfg.opcodeMap.bytes) :
    step s = .next (s.raise .illegalOpcode s.fetch.op s.fetch.op) := by
  simp only [step, hrun, decodeFetched_unrecognized hop]

/-- Settles O21: the step raises IllegalOpcode, and fault entry changes the run state alone. -/
theorem unrecognizedOpcodeFaults : Obligations.UnrecognizedOpcodeFaults :=
  fun _ hrun hop => step_of_unrecognized hrun hop

/-- The register bytes of a well-formed instruction are legal (R83). -/
theorem toNat_lt_of_mem_regOperands {i : Instr} (hwf : i.wf = true) {b : Byte} (hb : b ∈ i.regOperands) : b.toNat < 8 :=
  of_decide_eq_true (List.all_eq_true.mp hwf b hb)

/-- The outcome is a next state in run state `r`. -/
def CompletesIn (r : RunState) (o : Host.Outcome State Fault Refusal) : Prop :=
  ∃ t, o = .next t ∧ t.run = r

/-- Past the check of a legal register byte, an instruction completes if what follows the check does. -/
theorem withReg_completesIn {r : RunState} {op b : Byte} {s : State} {k : RegIdx → Host.Outcome State Fault Refusal}
    (hb : b.toNat < 8) (hk : ∀ a, CompletesIn r (k a)) : CompletesIn r (withReg op b s k) := by
  rw [withReg_legal op b s k hb]
  exact hk _

/-- Past the checks of two legal register bytes, an instruction completes if what follows the checks does. -/
theorem withRegs_completesIn {r : RunState} {op a b : Byte} {s : State}
    {k : RegIdx → RegIdx → Host.Outcome State Fault Refusal} (ha : a.toNat < 8) (hb : b.toNat < 8)
    (hk : ∀ rA rB, CompletesIn r (k rA rB)) : CompletesIn r (withRegs op a b s k) :=
  withReg_completesIn ha fun rA => withReg_completesIn hb (hk rA)

/-- HLT completes, Halted (R210). -/
theorem exec_hlt_completesIn (s : State) : CompletesIn .halted (exec .hlt s) := ⟨_, rfl, rfl⟩

/-- Every instruction but HLT completes with the run state as it was, if its register bytes are legal: the check of those
bytes is its only way to fault, and what follows writes registers, flags, memory, output and PC (R224). -/
theorem exec_completesIn {i : Instr} (hi : i ≠ .hlt) (hwf : i.wf = true) (s : State) :
    CompletesIn s.run (exec i s) := by
  have hreg : ∀ b ∈ i.regOperands, b.toNat < 8 := fun b => toNat_lt_of_mem_regOperands hwf
  cases i with
  | ldi rA imm8 => exact withReg_completesIn (hreg rA (.head _)) fun _ => ⟨_, rfl, rfl⟩
  | add rA rB => exact withRegs_completesIn (hreg rA (.head _)) (hreg rB (.tail _ (.head _))) fun _ _ => ⟨_, rfl, rfl⟩
  | mul rA rB => exact withRegs_completesIn (hreg rA (.head _)) (hreg rB (.tail _ (.head _))) fun _ _ => ⟨_, rfl, rfl⟩
  | prn rA => exact withReg_completesIn (hreg rA (.head _)) fun _ => ⟨_, rfl, rfl⟩
  | push rA => exact withReg_completesIn (hreg rA (.head _)) fun _ => ⟨_, rfl, rfl⟩
  | pop rA => exact withReg_completesIn (hreg rA (.head _)) fun _ => ⟨_, rfl, rfl⟩
  | call rA => exact withReg_completesIn (hreg rA (.head _)) fun _ => ⟨_, rfl, rfl⟩
  | ret => exact ⟨_, rfl, rfl⟩
  | cmp rA rB => exact withRegs_completesIn (hreg rA (.head _)) (hreg rB (.tail _ (.head _))) fun _ _ => ⟨_, rfl, rfl⟩
  | hlt => exact absurd rfl hi

/-- Settles O24: the step is the instruction's effect, and that completes. -/
theorem nothingElseFaults : Obligations.NothingElseFaults := by
  intro s i hrun hwf hdec
  rw [step_of_decodes hrun hdec]
  by_cases hi : i = .hlt
  · rw [if_pos hi, hi]
    exact exec_hlt_completesIn s
  · rw [if_neg hi, ← hrun]
    exact exec_completesIn hi hwf s

end Sys2Proof.Machine

/-! The first fetch (70_reset_and_hazards.md rule R262): `load` leaves the PC and SP of `init()`, and the first byte of
the program is the cell that PC names. -/

namespace Sys2Proof.Machine

/-- A non-empty program written over empty memory has its first byte at address 0. -/
theorem Memory.read_writeFrom_nil_zero (b : Byte) (bytes : List Byte) :
    Memory.read (Memory.writeFrom [] 0 (b :: bytes)) 0 = b := by
  rw [Memory.read_writeFrom_nil, if_pos (List.length_pos_of_ne_nil (List.cons_ne_nil b bytes)), List.getD_cons_zero]

/-- Settles O5: a load that answers writes the program over the empty memory of `init()` and keeps its PC and SP. -/
theorem firstFetchIsTheFirstLoadedByte : Obligations.FirstFetchIsTheFirstLoadedByte := by
  intro s t b bytes hload
  obtain ⟨-, -, rfl⟩ := load_next hload
  exact ⟨rfl, init_pc s, Memory.read_writeFrom_nil_zero b bytes, rfl⟩

end Sys2Proof.Machine

/-! Decoding and encoding are inverse (30_encoding.md rules R80 to R88): under a map that meets R86 the opcode byte names
the instruction, and its operand bytes are the first of the bytes that follow. -/

namespace Sys2Proof.Machine

/-- What decodes is an instruction of the fetched opcode byte, and its operand bytes begin the two latched ones (R82). -/
theorem operandBytes_of_decodeFetched {m : OpcodeMap} {op opA opB : Byte} {i : Instr}
    (h : decodeFetched m op opA opB = .ok i) : opcodeOf m i = op ∧ operandBytes i <+: [opA, opB] := by
  obtain ⟨hop, hi⟩ := decodeFetched_ok h
  refine ⟨hop, ?_⟩
  rcases hi with rfl | rfl | rfl | rfl | rfl | rfl | rfl | rfl | rfl | rfl <;> exact ⟨_, rfl⟩

/-- An instruction decodes from its own opcode byte: the ten bytes are distinct (R86), so each test before its row of the
table fails. -/
theorem decodeFetched_opcodeOf {m : OpcodeMap} (hm : m.wf = true) {i : Instr} {opA opB : Byte}
    (hops : operandBytes i <+: [opA, opB]) : decodeFetched m (opcodeOf m i) opA opB = .ok i := by
  obtain ⟨hdistinct, -, -⟩ := OpcodeMap.wf_parts hm
  have hearlier := List.nodup_reverse.mpr hdistinct
  simp only [OpcodeMap.bytes, List.reverse_cons, List.reverse_nil, List.nil_append, List.cons_append, List.nodup_cons,
    List.mem_cons, List.not_mem_nil, or_false, not_or] at hearlier
  cases i with
  | ldi | add | mul | prn | push | pop | call | cmp =>
    simp only [operandBytes, List.cons_prefix_cons, List.nil_prefix, and_true] at hops
    simp [decodeFetched, opcodeOf, hearlier, hops]
  | ret | hlt => simp [decodeFetched, opcodeOf, hearlier]

/-- DECODING, SAID ONCE: fetched bytes decode to the instruction whose opcode byte and operand bytes they begin with. -/
theorem decodeFetched_eq_ok_iff {m : OpcodeMap} (hm : m.wf = true) {op opA opB : Byte} {i : Instr} :
    decodeFetched m op opA opB = .ok i ↔ opcodeOf m i = op ∧ operandBytes i <+: [opA, opB] :=
  ⟨operandBytes_of_decodeFetched, fun ⟨hop, hops⟩ => hop ▸ decodeFetched_opcodeOf hm hops⟩

/-- Decoding does not depend on the latched bytes past the count in the opcode byte (R82, U13). -/
theorem decodeFetched_congr {m : OpcodeMap} (hm : m.wf = true) {op a b a' b' : Byte}
    (h : [a, b].take (operandCount op) = [a', b'].take (operandCount op)) :
    decodeFetched m op a b = decodeFetched m op a' b' := by
  rcases decodeFetched_cases m op a b with ⟨i, hi, hop⟩ | ⟨herr, hnot⟩
  · obtain ⟨-, hops⟩ := operandBytes_of_decodeFetched hi
    have htake : operandBytes i = [a', b'].take (operandCount op) := by
      rw [← h, ← hop, ← operandBytes_length hm]
      exact List.prefix_iff_eq_take.mp hops
    rw [hi, eq_comm, decodeFetched_eq_ok_iff hm, htake]
    exact ⟨hop, List.take_prefix _ _⟩
  · rw [herr, decodeFetched_unrecognized hnot]

/-- A list of at most two bytes that are there begins the byte list exactly when it begins its first two bytes. -/
theorem begins_first_two_iff {l tail : List Byte} (htwo : l.length ≤ 2) (hlen : l.length ≤ tail.length) :
    l <+: [tail.getD 0 0, tail.getD 1 0] ↔ l <+: tail := by
  match l, tail, htwo, hlen with
  | [], _, _, _ => simp
  | [x], a :: tail, _, _ => simp
  | [x, y], a :: b :: tail, _, _ => simp

/-- A byte list decodes when its first byte is the instruction's and the operand bytes follow (R80). -/
theorem decode_cons_eq_ok_iff {m : OpcodeMap} (hm : m.wf = true) {op : Byte} {tail rest : List Byte} {i : Instr} :
    decode m (op :: tail) = .ok (i, rest) ↔ opcodeOf m i = op ∧ operandBytes i ++ rest = tail := by
  have hlength := operandBytes_length hm i
  have htwo := operandBytes_length_le_two i
  constructor
  · intro h
    simp only [decode] at h
    split at h
    · cases h
    · next j hj =>
      split at h
      · next hcount =>
        injection h with h
        obtain ⟨rfl, rfl⟩ := Prod.mk.inj h
        obtain ⟨rfl, hops⟩ := operandBytes_of_decodeFetched hj
        rw [← hlength] at hcount
        obtain ⟨rest, rfl⟩ := (begins_first_two_iff htwo hcount).mp hops
        exact ⟨rfl, by rw [← hlength, List.drop_left]⟩
      · cases h
  · rintro ⟨rfl, rfl⟩
    have hfits : (operandBytes i).length ≤ (operandBytes i ++ rest).length := by simp
    have hdec := (decodeFetched_eq_ok_iff hm).mpr ⟨rfl, (begins_first_two_iff htwo hfits).mpr ⟨rest, rfl⟩⟩
    simp only [decode, hdec, ← hlength, if_pos hfits, List.drop_left]

/-- Settles O7: an encoding is the instruction's opcode byte with its operand bytes behind it. -/
theorem decodeOfEncodeIsTheInstruction : Obligations.DecodeOfEncodeIsTheInstruction :=
  fun _ _ _ hm => (decode_cons_eq_ok_iff hm).mpr ⟨rfl, rfl⟩

/-- Settles O8: no bytes decode to nothing, and the others only as `decode_cons_eq_ok_iff` says. -/
theorem decodedBytesAreTheEncoding : Obligations.DecodedBytesAreTheEncoding := by
  intro m bytes rest i hm h
  cases bytes with
  | nil => cases h
  | cons op tail =>
    obtain ⟨rfl, rfl⟩ := (decode_cons_eq_ok_iff hm).mp h
    rfl

/-- Settles O11: each instruction's operand bytes begin the latched ones, and a byte outside the ten has no instruction. -/
theorem decodeMatchesTheWholeByte : Obligations.DecodeMatchesTheWholeByte := by
  intro m a b hm
  have own (i : Instr) (hops : operandBytes i <+: [a, b]) : decodeFetched m (opcodeOf m i) a b = .ok i :=
    (decodeFetched_eq_ok_iff hm).mpr ⟨rfl, hops⟩
  exact ⟨own (.ldi a b) ⟨[], rfl⟩, own (.add a b) ⟨[], rfl⟩, own (.mul a b) ⟨[], rfl⟩, own (.prn a) ⟨[b], rfl⟩,
    own (.push a) ⟨[b], rfl⟩, own (.pop a) ⟨[b], rfl⟩, own (.call a) ⟨[b], rfl⟩, own .ret ⟨[a, b], rfl⟩,
    own (.cmp a b) ⟨[], rfl⟩, own .hlt ⟨[a, b], rfl⟩, fun op hop => decodeFetched_unrecognized hop a b⟩

/-- Settles O13: no latched byte counts under count 0, and the first alone under count 1. -/
theorem bytesOutsideTheFormatAreIgnored : Obligations.BytesOutsideTheFormatAreIgnored := by
  intro m op a b a' b' hm
  refine ⟨fun hcount => decodeFetched_congr hm ?_, fun hcount => decodeFetched_congr hm ?_⟩
  · simp [operandCount, hcount]
  · simp [operandCount, hcount]

/-- The default bytes meet R86 (D1). -/
theorem historicalMap_wf : historicalMap.wf = true := by decide

/-- No operation has count 3, so no byte of a map that meets R86 has `op[7:6] = 0b11`. -/
theorem extractLsb_ne_three_of_mem {m : OpcodeMap} (hm : m.wf = true) {op : Byte} (hop : op ∈ m.bytes) :
    op.extractLsb' 6 2 ≠ 3 := by
  intro hthree
  have hcount : operandCount op = 3 := by rw [operandCount, hthree]; rfl
  rcases decodeFetched_cases m op 0 0 with ⟨i, -, rfl⟩ | ⟨-, hnot⟩
  · have htwo := operandBytes_length_le_two i
    rw [operandBytes_length hm, hcount] at htwo
    omega
  · exact hnot hop

/-- Settles O10: ten closed decodings under the default map. -/
theorem tableWordsDecodeToTheirInstructions : Obligations.TableWordsDecodeToTheirInstructions :=
  ⟨rfl, rfl, rfl, rfl, rfl, rfl, rfl, rfl, rfl, rfl⟩

/-- Settles O12: the map's own check, its distinct bytes, no count of 3, and bit 5 on the ten listed bytes. -/
theorem historicalMapMeetsItsConditions : Obligations.HistoricalMapMeetsItsConditions :=
  ⟨historicalMap_wf, (OpcodeMap.wf_parts historicalMap_wf).1,
    fun _ hop => extractLsb_ne_three_of_mem historicalMap_wf hop, by decide⟩

/-- Every byte value, once each. -/
def allBytes : List Byte := (List.range 256).map (BitVec.ofNat 8)

theorem mem_allBytes (b : Byte) : b ∈ allBytes :=
  List.mem_map.mpr ⟨b.toNat, List.mem_range.mpr b.isLt, BitVec.ofNat_toNat 8 b⟩

theorem allBytes_nodup : allBytes.Nodup := by
  refine List.nodup_range.map_on fun m hm n hn h => ?_
  rw [List.mem_range] at hm hn
  have hmod : m % 256 = n % 256 := congrArg BitVec.toNat h
  omega

/-- A list of distinct bytes leaves the other values out, 256 less its length. -/
theorem length_filter_not_contains {l : List Byte} (hl : l.Nodup) :
    (allBytes.filter (fun b => !l.contains b)).length = 256 - l.length := by
  have hsplit := allBytes.length_eq_length_filter_add (fun b => l.contains b)
  have hlisted : (allBytes.filter (fun b => l.contains b)).Perm l :=
    (List.perm_ext_iff_of_nodup (allBytes_nodup.filter _) hl).mpr fun b => by simp [mem_allBytes]
  have htotal : allBytes.length = 256 := by rw [allBytes, List.length_map, List.length_range]
  rw [hlisted.length_eq, htotal] at hsplit
  omega

/-- Settles O14: ten distinct bytes leave 246 out, and the rest holds of every byte outside the ten. -/
theorem allButTenOpcodeBytesAreUnrecognized : Obligations.AllButTenOpcodeBytesAreUnrecognized := by
  refine ⟨?_, by decide, fun _ hthree hop => extractLsb_ne_three_of_mem historicalMap_wf hop hthree,
    fun _ a b hop => decodeFetched_unrecognized hop a b⟩
  have hcount := length_filter_not_contains (OpcodeMap.wf_parts historicalMap_wf).1
  rwa [allBytes, List.filter_map, List.length_map] at hcount

end Sys2Proof.Machine

/-! What an instruction does, said once (40_execution_cycle.md rules R112 to R114, 60_exceptions.md rule R223): with legal
register bytes it completes in its `effect`, and otherwise it takes the IllegalRegister fault of its first illegal byte. -/

namespace Sys2Proof.Machine

/-- A byte pushed: SP goes down by one and the cell it then names holds the byte (R170, R190). -/
def pushed (s : State) (v : Byte) : State := s.spDown.memWrite s.spDown.sp v

@[simp] theorem readReg_pushed (s : State) (v : Byte) (r : RegIdx) : (pushed s v).readReg r = s.spDown.readReg r := rfl
@[simp] theorem sp_pushed (s : State) (v : Byte) : (pushed s v).sp = s.sp - 1 := sp_spDown s

/-- The cell below the old SP holds the pushed byte, every other what it held (R56). -/
theorem memRead_pushed {s : State} (hm : Memory.wf s.mem = true) (v b : Byte) :
    (pushed s v).memRead b = if b = s.sp - 1 then v else s.memRead b := by
  rw [pushed, memRead_memWrite (s := s.spDown) hm, sp_spDown, memRead_spDown]

/-- The byte at SP popped into a register: SP goes up after the register's write (R175, D16). -/
def popped (s : State) (r : RegIdx) : State := (s.writeReg r (s.memRead s.sp)).spUp

@[simp] theorem memRead_popped (s : State) (r : RegIdx) (a : Byte) : (popped s r).memRead a = s.memRead a := rfl

/-- The register a legal index byte names. -/
def regOf (b : Byte) : RegIdx := Fin.ofNat 8 b.toNat

theorem regOf_legal {b : Byte} (h : b.toNat < 8) : regOf b = ⟨b.toNat, h⟩ :=
  Fin.ext (Nat.mod_eq_of_lt h)

/-- The state an instruction with legal register bytes completes in; `exec_of_wf` ties it to `exec`. -/
def effect (i : Instr) (s : State) : State :=
  let advanced (t : State) : State := t.advance (opcodeOf s.cfg.opcodeMap i)
  match i with
  | .ldi a imm8 => advanced (s.writeReg (regOf a) imm8)
  | .add a b => advanced (s.writeReg (regOf a) (aluAdd (s.readReg (regOf a)) (s.readReg (regOf b))))
  | .mul a b => advanced (s.writeReg (regOf a) (aluMul (s.readReg (regOf a)) (s.readReg (regOf b))))
  | .prn a => advanced (s.emit (s.readReg (regOf a)))
  | .push a => advanced (pushed s (s.spDown.readReg (regOf a)))
  | .pop a => advanced (popped s (regOf a))
  | .call a => (pushed s (s.pc + 2)).setPc (s.spDown.readReg (regOf a))
  | .ret => s.spUp.setPc (s.memRead s.sp)
  | .cmp a b =>
    advanced (s.setFlags (compareFlags s.cfg.cmpClearsFlags (s.readReg (regOf a)) (s.readReg (regOf b)) s.fl))
  | .hlt => advanced (s.setRun .halted)

/-- The check of a legal register byte goes on with the register it names. -/
theorem withReg_regOf {op b : Byte} {s : State} {k : RegIdx → Host.Outcome State Fault Refusal} (h : b.toNat < 8) :
    withReg op b s k = k (regOf b) := by
  rw [withReg_legal op b s k h, regOf_legal h]

/-- The checks of two legal register bytes go on with the registers they name. -/
theorem withRegs_regOf {op a b : Byte} {s : State} {k : RegIdx → RegIdx → Host.Outcome State Fault Refusal}
    (ha : a.toNat < 8) (hb : b.toNat < 8) : withRegs op a b s k = k (regOf a) (regOf b) := by
  rw [withRegs_legal op a b s k ha hb, regOf_legal ha, regOf_legal hb]

/-- An instruction with legal register bytes completes in its effect (R113). -/
theorem exec_of_wf {i : Instr} (hwf : i.wf = true) (s : State) : exec i s = .next (effect i s) := by
  have hreg : ∀ b ∈ i.regOperands, b.toNat < 8 := fun b => toNat_lt_of_mem_regOperands hwf
  cases i with
  | ldi rA imm8 => exact withReg_regOf (hreg rA (.head _))
  | add rA rB => exact withRegs_regOf (hreg rA (.head _)) (hreg rB (.tail _ (.head _)))
  | mul rA rB => exact withRegs_regOf (hreg rA (.head _)) (hreg rB (.tail _ (.head _)))
  | prn rA => exact withReg_regOf (hreg rA (.head _))
  | push rA => exact withReg_regOf (hreg rA (.head _))
  | pop rA => exact withReg_regOf (hreg rA (.head _))
  | call rA => exact withReg_regOf (hreg rA (.head _))
  | ret => rfl
  | cmp rA rB => exact withRegs_regOf (hreg rA (.head _)) (hreg rB (.tail _ (.head _)))
  | hlt => rfl

/-- The first illegal register index byte of an instruction (R112, D12). -/
def firstIllegal (i : Instr) : Option Byte := i.regOperands.find? (fun c => decide (8 ≤ c.toNat))

/-- An instruction has an illegal register byte exactly when it is not well formed (R83). -/
theorem firstIllegal_eq_none_iff {i : Instr} : firstIllegal i = none ↔ i.wf = true := by
  simp [firstIllegal, Instr.wf, isRegIndex]

/-- The checks of two register bytes take the fault of the first illegal one (D12). -/
theorem withRegs_firstIllegal {op a b c : Byte} {s : State} {k : RegIdx → RegIdx → Host.Outcome State Fault Refusal}
    (h : [a, b].find? (fun c => decide (8 ≤ c.toNat)) = some c) :
    withRegs op a b s k = .next (s.raise .illegalRegister op c) := by
  rcases withRegs_cases op a b s k with ⟨ha, hb, -⟩ | ⟨ha, hfault⟩ | ⟨ha, hb, hfault⟩
  · simp [ha, hb] at h
  · obtain rfl : a = c := by simpa [ha] using h
    exact hfault
  · obtain rfl : b = c := by simpa [ha, hb] using h
    exact hfault

/-- The check of one register byte takes the fault if it is illegal. -/
theorem withReg_firstIllegal {op a c : Byte} {s : State} {k : RegIdx → Host.Outcome State Fault Refusal}
    (h : [a].find? (fun c => decide (8 ≤ c.toNat)) = some c) :
    withReg op a s k = .next (s.raise .illegalRegister op c) := by
  have hillegal : 8 ≤ c.toNat := of_decide_eq_true (List.find?_some h :)
  obtain rfl := List.mem_singleton.mp (List.mem_of_find?_eq_some h)
  exact withReg_illegal op c s k hillegal

/-- An instruction with an illegal register byte takes the fault of the first one, before any write (R112, D3). -/
theorem exec_of_firstIllegal {i : Instr} {b : Byte} (h : firstIllegal i = some b) (s : State) :
    exec i s = .next (s.raise .illegalRegister (opcodeOf s.cfg.opcodeMap i) b) := by
  cases i with
  | ldi rA imm8 => exact withReg_firstIllegal h
  | add rA rB => exact withRegs_firstIllegal h
  | mul rA rB => exact withRegs_firstIllegal h
  | prn rA => exact withReg_firstIllegal h
  | push rA => exact withReg_firstIllegal h
  | pop rA => exact withReg_firstIllegal h
  | call rA => exact withReg_firstIllegal h
  | ret => cases h
  | cmp rA rB => exact withRegs_firstIllegal h
  | hlt => cases h

/-- WHAT AN INSTRUCTION CAN DO: complete in its effect, or take the fault of its first illegal register byte. -/
theorem exec_cases (i : Instr) (s : State) :
    (i.wf = true ∧ exec i s = .next (effect i s)) ∨
    (∃ b, firstIllegal i = some b ∧
      exec i s = .next (s.raise .illegalRegister (opcodeOf s.cfg.opcodeMap i) b)) := by
  cases h : firstIllegal i with
  | none =>
    have hwf := firstIllegal_eq_none_iff.mp h
    exact .inl ⟨hwf, exec_of_wf hwf s⟩
  | some b => exact .inr ⟨b, rfl, exec_of_firstIllegal h s⟩

/-- The inversion of `exec_cases` at a next state. -/
theorem exec_next {i : Instr} {s t : State} (h : exec i s = .next t) :
    (i.wf = true ∧ t = effect i s) ∨
    (∃ b, firstIllegal i = some b ∧ t = s.raise .illegalRegister (opcodeOf s.cfg.opcodeMap i) b) := by
  rcases exec_cases i s with ⟨hwf, he⟩ | ⟨b, hb, he⟩ <;> rw [he] at h <;> injection h with ht
  · exact .inl ⟨hwf, ht.symm⟩
  · exact .inr ⟨b, hb, ht.symm⟩

/-! What each effect changes and leaves unchanged, field by field. -/

section Effect
variable (i : Instr) (s : State)

@[simp] theorem effect_cfg : (effect i s).cfg = s.cfg := by cases i <;> rfl

/-- HLT alone ends the run (R210). -/
theorem effect_run : (effect i s).run = if i = .hlt then .halted else s.run := by
  cases i with
  | hlt => rfl
  | _ => exact (if_neg (by simp)).symm

/-- The byte an instruction appends to the output, if any (R160). -/
def emitted : List Byte :=
  match i with
  | .prn a => [s.readReg (regOf a)]
  | _ => []

theorem effect_out : (effect i s).out = s.out ++ emitted i s := by
  cases i with
  | prn a => rfl
  | _ => exact (List.append_nil _).symm

theorem emitted_length_le_one : (emitted i s).length ≤ 1 := by
  cases i <;> simp [emitted]

theorem emitted_of_not_prn {i : Instr} (hi : ∀ a, i ≠ .prn a) (s : State) : emitted i s = [] := by
  cases i with
  | prn a => exact absurd rfl (hi a)
  | _ => rfl

/-- The output is read by nothing (R31): from another output the effect is the same and appends the same bytes. -/
theorem effect_with_out (o : List Byte) :
    effect i { s with out := o } = { effect i s with out := o ++ emitted i s } := by
  cases i with
  | prn a => rfl
  | _ => simp only [emitted, List.append_nil]; rfl

/-- CALL and RET set the PC; every other instruction moves it past its own bytes (R114). -/
theorem effect_pc {i : Instr} (hcall : ∀ a, i ≠ .call a) (hret : i ≠ .ret) (s : State) :
    (effect i s).pc = s.pc + BitVec.ofNat 8 (operandCount (opcodeOf s.cfg.opcodeMap i) + 1) := by
  cases i with
  | call a => exact absurd rfl (hcall a)
  | ret => exact absurd rfl hret
  | _ => rfl

/-- PUSH and CALL alone store, each one byte at the decremented SP (R56). -/
theorem effect_mem : ((effect i s).mem = s.mem ∧ storedAddress i s = none) ∨
    (∃ v, (effect i s).mem = (s.memWrite s.spDown.sp v).mem ∧ storedAddress i s = some s.spDown.sp) := by
  cases i with
  | push a => exact .inr ⟨_, rfl, rfl⟩
  | call a => exact .inr ⟨_, rfl, rfl⟩
  | _ => exact .inl ⟨rfl, rfl⟩

/-- A legal index byte of another value names another register. -/
theorem regOf_ne {b : Byte} {r : RegIdx} (hb : b.toNat < 8) (h : r.val ≠ b.toNat) : regOf b ≠ r := by
  rw [regOf_legal hb]
  exact fun hr => h (congrArg Fin.val hr).symm

/-- A register outside the write column of R23 keeps its value. -/
theorem effect_readReg {i : Instr} {r : RegIdx} (hwf : i.wf = true) (hr : r.val ∉ registersWritten i) (s : State) :
    (effect i s).readReg r = s.readReg r := by
  have hreg : ∀ b ∈ i.regOperands, b.toNat < 8 := fun b => toNat_lt_of_mem_regOperands hwf
  have hsp (h : r.val ≠ 7) : spReg ≠ r := fun heq => h (congrArg Fin.val heq).symm
  cases i with
  | ldi a _ | add a _ | mul a _ =>
    exact (readReg_writeReg s (regOf a) r _).trans
      (if_neg (regOf_ne (hreg a (.head _)) fun h => hr (List.mem_singleton.mpr h)))
  | prn _ | cmp _ _ | hlt => rfl
  | push _ | call _ => exact (readReg_spDown s r).trans (if_neg (hsp fun h => hr (List.mem_singleton.mpr h)))
  | ret => exact (readReg_spUp s r).trans (if_neg (hsp fun h => hr (List.mem_singleton.mpr h)))
  | pop a =>
    simp only [registersWritten, List.mem_cons, List.not_mem_nil, or_false, not_or] at hr
    obtain ⟨hra, hr7⟩ := hr
    calc (effect (.pop a) s).readReg r
        = (s.writeReg (regOf a) (s.memRead s.sp)).readReg r := (readReg_spUp _ r).trans (if_neg (hsp hr7))
      _ = s.readReg r := (readReg_writeReg s (regOf a) r _).trans (if_neg (regOf_ne (hreg a (.head _)) hra))

end Effect

/-! The claims about every instruction that follow from `exec_cases` and the effects' fields. -/

/-- Settles O22: the fault of the first illegal byte, and the run states in which RET and HLT complete. -/
theorem firstIllegalRegisterByteFaults : Obligations.FirstIllegalRegisterByteFaults := by
  refine ⟨fun s i b h => exec_of_firstIllegal h s, fun s t h r hrun => ?_⟩
  rcases h with h | h <;> injection h with ht
  · rw [← ht]
    exact hrun
  · simp [← ht]

/-- Settles O39: a fault writes no register, and an effect those of its column alone. -/
theorem registersOutsideTheWriteTableAreUnchanged : Obligations.RegistersOutsideTheWriteTableAreUnchanged := by
  intro s t i r h hr
  rcases exec_next h with ⟨hwf, rfl⟩ | ⟨b, -, rfl⟩
  · exact effect_readReg hwf hr s
  · rfl

/-- Settles O40: a fault stores nothing, and an effect its one byte. -/
theorem cellsOutsideTheStoreAreUnchanged : Obligations.CellsOutsideTheStoreAreUnchanged := by
  intro s t i b hm h
  rcases exec_next h with ⟨-, rfl⟩ | ⟨c, -, rfl⟩
  · rcases effect_mem i s with ⟨hmem, hnone⟩ | ⟨v, hmem, hsome⟩
    · exact ⟨fun _ => memRead_congr hmem b, fun a ha => by simp [hnone] at ha⟩
    · refine ⟨fun hnone => by simp [hsome] at hnone, fun a ha hne => ?_⟩
      obtain rfl : s.spDown.sp = a := by simpa [hsome] using ha
      rw [memRead_congr hmem b, memRead_memWrite hm, if_neg hne]
  · exact ⟨fun _ => rfl, fun _ _ _ => rfl⟩

/-- Settles O42: an effect appends what the instruction emits, a fault nothing, and neither reads the output. -/
theorem outputOnlyGrowsByPrn : Obligations.OutputOnlyGrowsByPrn := by
  constructor
  · intro s t i h
    rcases exec_next h with ⟨-, rfl⟩ | ⟨b, -, rfl⟩
    · exact ⟨emitted i s, effect_out i s, emitted_length_le_one i s, fun hi => emitted_of_not_prn hi s⟩
    · exact ⟨[], (List.append_nil _).symm, Nat.zero_le 1, fun _ => rfl⟩
  · intro s t i o h
    rcases exec_next h with ⟨hwf, rfl⟩ | ⟨b, hb, rfl⟩
    · exact ⟨emitted i s, effect_out i s, by rw [exec_of_wf hwf, effect_with_out]⟩
    · exact ⟨[], (List.append_nil _).symm, by rw [exec_of_firstIllegal hb, List.append_nil]; rfl⟩

/-- Settles O18: a well-formed instruction completes in its effect, whose PC is past the bytes of the encoding. -/
theorem defaultAdvanceMovesThePc : Obligations.DefaultAdvanceMovesThePc := by
  intro s i hm hwf hcall hret
  have hpc := effect_pc hcall hret s
  refine ⟨effect i s, exec_of_wf hwf s, hpc, ?_⟩
  rw [hpc, encode_length, operandBytes_length hm]

end Sys2Proof.Machine

/-! The step (40_execution_cycle.md rules R110 to R118) and its faults (60_exceptions.md rules R220 to R225). -/

namespace Sys2Proof.Machine

/-- Settles O15: the addition of an offset to a byte is the sum modulo 256, at the top as anywhere. -/
theorem fetchReadsThreeBytesAndWraps : Obligations.FetchReadsThreeBytesAndWraps := by
  have hnext (pc : Byte) (k : Nat) : BitVec.ofNat 8 (pc.toNat + k) = pc + BitVec.ofNat 8 k := by
    rw [BitVec.ofNat_add, BitVec.ofNat_toNat, BitVec.setWidth_eq]
  refine fun s => ⟨⟨rfl, ?_, ?_⟩, fun htop => ?_, fun htop => ?_⟩
  · exact congrArg s.memRead (hnext s.pc 1).symm
  · exact congrArg s.memRead (hnext s.pc 2).symm
  · rw [fetch_opA, fetch_opB, htop]
    exact ⟨rfl, rfl⟩
  · rw [fetch_opA, fetch_opB, htop]
    exact ⟨rfl, rfl⟩

/-- Settles O16: the three bytes are those of the fetch. -/
theorem stepRunsTheDecodedInstruction : Obligations.StepRunsTheDecodedInstruction :=
  fun _ _ hrun hdec => step_of_decodes hrun hdec

/-- An instruction is fetched where its opcode byte stands at the PC and its operand bytes follow: the step runs it. -/
theorem step_of_fetched {s : State} {i : Instr} (hrun : s.run = .running) (hm : s.cfg.opcodeMap.wf = true)
    (hop : s.memRead s.pc = opcodeOf s.cfg.opcodeMap i)
    (hops : operandBytes i <+: [s.memRead (s.pc + 1), s.memRead (s.pc + 2)]) : step s = exec i s :=
  step_of_decodes hrun ((decodeFetched_eq_ok_iff hm).mpr ⟨hop.symm, hops⟩)

/-- Settles O17: the fetched bytes decode to an instruction, which always answers a next state, or the opcode faults. -/
theorem runningCoreAlwaysSteps : Obligations.RunningCoreAlwaysSteps := by
  intro s hrun
  rcases decodeFetched_cases s.cfg.opcodeMap s.fetch.op s.fetch.opA s.fetch.opB with ⟨i, hdec, -⟩ | ⟨-, hop⟩
  · rw [step_of_decodes hrun hdec]
    rcases exec_cases i s with ⟨-, he⟩ | ⟨b, -, he⟩
    · exact ⟨_, he⟩
    · exact ⟨_, he⟩
  · exact ⟨_, step_of_unrecognized hrun hop⟩

/-- THE THREE ENDS OF A STEP: the effect of the well-formed instruction fetched, the fault of its first illegal register
byte, or the fault of an opcode byte outside the ten. -/
theorem step_next_cases {s t : State} (h : step s = .next t) : s.run = .running ∧
    ((∃ i, decodeFetched s.cfg.opcodeMap s.fetch.op s.fetch.opA s.fetch.opB = .ok i ∧ i.wf = true ∧ t = effect i s) ∨
     (∃ i b, decodeFetched s.cfg.opcodeMap s.fetch.op s.fetch.opA s.fetch.opB = .ok i ∧ firstIllegal i = some b ∧
        t = s.raise .illegalRegister s.fetch.op b) ∨
     (s.fetch.op ∉ s.cfg.opcodeMap.bytes ∧ t = s.raise .illegalOpcode s.fetch.op s.fetch.op)) := by
  obtain ⟨hrun, ⟨i, hdec, hop, he⟩ | hunrecognized⟩ := step_next h
  · rcases exec_next he with ⟨hwf, rfl⟩ | ⟨b, hb, rfl⟩
    · exact ⟨hrun, .inl ⟨i, hdec, hwf, rfl⟩⟩
    · exact ⟨hrun, .inr (.inl ⟨i, b, hdec, hb, by rw [hop]⟩)⟩
  · exact ⟨hrun, .inr (.inr hunrecognized)⟩

/-- The effect of an instruction in a Running core is Running or Halted. -/
theorem effect_run_of_running {s : State} (hrun : s.run = .running) (i : Instr) :
    (effect i s).run = if i = .hlt then .halted else .running := by
  rw [effect_run, hrun]

/-- If a step leads to Faulted, it is one of the two faults (R221). -/
theorem step_faulted {s t : State} {r : FaultRecord} (h : step s = .next t) (hfault : t.run = .faulted r) :
    t = s.setRun (.faulted r) ∧
    ((∃ i b, decodeFetched s.cfg.opcodeMap s.fetch.op s.fetch.opA s.fetch.opB = .ok i ∧ firstIllegal i = some b ∧
        r = ⟨.illegalRegister, s.pc, s.fetch.op, b⟩) ∨
     (s.fetch.op ∉ s.cfg.opcodeMap.bytes ∧ r = ⟨.illegalOpcode, s.pc, s.fetch.op, s.fetch.op⟩)) := by
  obtain ⟨hrun, ⟨i, -, -, rfl⟩ | ⟨i, b, hdec, hb, rfl⟩ | ⟨hop, rfl⟩⟩ := step_next_cases h
  · rw [effect_run_of_running hrun] at hfault
    split at hfault <;> cases hfault
  · cases hfault
    exact ⟨rfl, .inl ⟨i, b, hdec, hb, rfl⟩⟩
  · cases hfault
    exact ⟨rfl, .inr ⟨hop, rfl⟩⟩

/-- The register bytes of a decoded instruction are opA in the rows that check one (R223), opA and opB in
format RR, and none for RET and HLT. -/
theorem regOperands_of_decodes {m : OpcodeMap} {op opA opB : Byte} {i : Instr}
    (hdec : decodeFetched m op opA opB = .ok i) :
    i.regOperands = [] ∨ (op ∈ m.regBytes ∧ i.regOperands = [opA]) ∨
      (op ∈ m.regBytes ∧ op ∈ m.aluBytes ∧ i.regOperands = [opA, opB]) := by
  obtain ⟨rfl, hi⟩ := decodeFetched_ok hdec
  rcases hi with rfl | rfl | rfl | rfl | rfl | rfl | rfl | rfl | rfl | rfl <;>
    simp [Instr.regOperands, opcodeOf, OpcodeMap.regBytes, OpcodeMap.aluBytes]

/-- The first illegal register byte of a decoded instruction is opA, or opB behind a legal opA in format RR (D12). -/
theorem firstIllegal_of_decodes {m : OpcodeMap} {op opA opB b : Byte} {i : Instr}
    (hdec : decodeFetched m op opA opB = .ok i) (hb : firstIllegal i = some b) :
    8 ≤ b.toNat ∧ ((op ∈ m.regBytes ∧ b = opA) ∨ (op ∈ m.aluBytes ∧ opA.toNat < 8 ∧ b = opB)) := by
  refine ⟨of_decide_eq_true (List.find?_some hb :), ?_⟩
  rw [firstIllegal] at hb
  rcases regOperands_of_decodes hdec with hnone | ⟨hreg, hone⟩ | ⟨hreg, halu, htwo⟩
  · rw [hnone] at hb
    cases hb
  · rw [hone] at hb
    exact .inl ⟨hreg, List.mem_singleton.mp (List.mem_of_find?_eq_some hb)⟩
  · rw [htwo] at hb
    by_cases hA : opA.toNat < 8
    · rw [List.find?_cons_of_neg (by simpa using hA)] at hb
      exact .inr ⟨halu, hA, List.mem_singleton.mp (List.mem_of_find?_eq_some hb)⟩
    · rw [List.find?_cons_of_pos (by simpa using hA), Option.some_inj] at hb
      exact .inl ⟨hreg, hb.symm⟩

/-- HLT is what its own byte decodes to, and no other byte decodes to it. -/
theorem eq_hlt_iff_of_decodes {m : OpcodeMap} (hm : m.wf = true) {op opA opB : Byte} {i : Instr}
    (hdec : decodeFetched m op opA opB = .ok i) : i = .hlt ↔ op = m.hlt := by
  constructor
  · rintro rfl
    exact (decodeFetched_ok hdec).1.symm
  · rintro rfl
    have hhlt : decodeFetched m m.hlt opA opB = .ok .hlt := decodeFetched_opcodeOf hm (i := .hlt) ⟨[opA, opB], rfl⟩
    exact Except.ok.inj (hdec.symm.trans hhlt)

/-- Settles O19: of the three ends of a step only the effect of HLT is Halted. -/
theorem onlyHltHalts : Obligations.OnlyHltHalts := by
  intro s t hm h
  rw [← fetch_op]
  obtain ⟨hrun, ⟨i, hdec, -, rfl⟩ | ⟨i, b, hdec, hb, rfl⟩ | ⟨hop, rfl⟩⟩ := step_next_cases h
  · rw [effect_run_of_running hrun, ← eq_hlt_iff_of_decodes hm hdec]
    simp
  · have hnot : i ≠ .hlt := by
      rintro rfl
      cases hb
    rw [← eq_hlt_iff_of_decodes hm hdec]
    simp [hnot]
  · have hnot : s.fetch.op ≠ s.cfg.opcodeMap.hlt := fun heq => hop (heq ▸ opcodeOf_mem_bytes s.cfg.opcodeMap .hlt)
    simp only [raise_run, reduceCtorEq, hnot]

/-- Settles O20: the two faults are raised at the fetched opcode, and raising one sets the run state alone. -/
theorem faultsArePrecise : Obligations.FaultsArePrecise := by
  intro s t r h hfault
  obtain ⟨rfl, ⟨i, b, -, -, rfl⟩ | ⟨-, rfl⟩⟩ := step_faulted h hfault
  · exact ⟨rfl, rfl, rfl⟩
  · exact ⟨rfl, rfl, rfl⟩

/-- Settles O23: a register fault needs a decoded opcode, and its byte is the first illegal one of the instruction. -/
theorem faultPriorityIsOpcodeThenFirstOperand : Obligations.FaultPriorityIsOpcodeThenFirstOperand := by
  intro s t r h hfault
  obtain ⟨-, ⟨i, b, hdec, hb, rfl⟩ | ⟨hop, rfl⟩⟩ := step_faulted h hfault
  · obtain ⟨hillegal, hfirst⟩ := firstIllegal_of_decodes hdec hb
    have hop : s.fetch.op ∈ s.cfg.opcodeMap.bytes :=
      (decodeFetched_ok hdec).1 ▸ opcodeOf_mem_bytes s.cfg.opcodeMap i
    rw [fetch_op] at hop
    refine ⟨by simp [hop], fun _ hA => ?_, fun _ hA => ?_⟩
    · rcases hfirst with ⟨-, hbA⟩ | ⟨-, hA', -⟩
      · exact hbA
      · exact absurd hA' (Nat.not_lt.mpr hA)
    · rcases hfirst with ⟨-, rfl⟩ | ⟨halu, -, hbB⟩
      · exact absurd hA (Nat.not_lt.mpr hillegal)
      · exact ⟨hbB, halu⟩
  · simpa using hop

end Sys2Proof.Machine

/-! The instructions one by one (41_alu.md to 46_halt.md): the effect of each, with the default advance counted out. -/

namespace Sys2Proof.Machine

/-- The default advance past an opcode byte and the operand bytes it counts (R114). -/
theorem advance_of_count {op : Byte} {n : Nat} (h : operandCount op = n) (s : State) :
    s.advance op = s.setPc (s.pc + BitVec.ofNat 8 (n + 1)) := by
  rw [State.advance, h]

/-- An illegal first register byte is the one the fault records, whatever comes after it (R223). -/
theorem exec_of_illegal_first {i : Instr} {a : Byte} {bs : List Byte} (hi : i.regOperands = a :: bs)
    (ha : 8 ≤ a.toNat) (s : State) :
    exec i s = .next (s.raise .illegalRegister (opcodeOf s.cfg.opcodeMap i) a) :=
  exec_of_firstIllegal (by rw [firstIllegal, hi, List.find?_cons_of_pos (by simpa using ha)]) s

/-- An illegal second register byte is the one the fault records behind a legal first (D12). -/
theorem exec_of_illegal_second {i : Instr} {a b : Byte} (hi : i.regOperands = [a, b]) (ha : a.toNat < 8)
    (hb : 8 ≤ b.toNat) (s : State) :
    exec i s = .next (s.raise .illegalRegister (opcodeOf s.cfg.opcodeMap i) b) :=
  exec_of_firstIllegal (by
    rw [firstIllegal, hi, List.find?_cons_of_neg (by simpa using ha), List.find?_cons_of_pos (by simpa using hb)]) s

/-- Settles O28: one register write after the check, and an advance of three. -/
theorem ldiLoadsTheImmediate : Obligations.LdiLoadsTheImmediate := by
  intro s rA imm8 hm
  obtain ⟨⟨hcount, -⟩, -⟩ := OpcodeMap.wf_counts hm
  refine ⟨fun hA => ?_, fun hA => exec_of_illegal_first rfl hA s, rfl⟩
  rw [exec, execLdi, withReg_legal _ _ _ _ hA, advance_of_count hcount]
  rfl

/-- The ALU's sum as the byte of the exact sum modulo 256. -/
theorem aluAdd_eq_ofNat (a b : Byte) : aluAdd a b = BitVec.ofNat 8 ((a.toNat + b.toNat) % 256) := by
  rw [← aluAdd_toNat, BitVec.ofNat_toNat, BitVec.setWidth_eq]

/-- The ALU's product as the byte of the exact product modulo 256. -/
theorem aluMul_eq_ofNat (a b : Byte) : aluMul a b = BitVec.ofNat 8 ((a.toNat * b.toNat) % 256) := by
  rw [← aluMul_toNat, BitVec.ofNat_toNat, BitVec.setWidth_eq]

/-- Settles O29: the ALU's sum is the exact one modulo 256, and the advance is three. -/
theorem addWritesTheWrappedSum : Obligations.AddWritesTheWrappedSum := by
  intro s rA rB hm
  obtain ⟨⟨-, hcount, -⟩, -⟩ := OpcodeMap.wf_counts hm
  refine ⟨fun hA hB => ?_, fun hA => exec_of_illegal_first rfl hA s,
    fun hA hB => exec_of_illegal_second rfl hA hB s, rfl⟩
  rw [exec, execAdd, withRegs_legal _ _ _ _ _ hA hB, advance_of_count hcount, aluAdd_eq_ofNat]
  rfl

/-- Settles O30: the ALU's product is the exact one modulo 256, and the advance is three. -/
theorem mulWritesTheLowByteOfTheProduct : Obligations.MulWritesTheLowByteOfTheProduct := by
  intro s rA rB hm
  obtain ⟨⟨-, -, hcount, -⟩, -⟩ := OpcodeMap.wf_counts hm
  refine ⟨fun hA hB => ?_, fun hA => exec_of_illegal_first rfl hA s,
    fun hA hB => exec_of_illegal_second rfl hA hB s, rfl⟩
  rw [exec, execMul, withRegs_legal _ _ _ _ _ hA hB, advance_of_count hcount, aluMul_eq_ofNat]
  rfl

/-- A comparison sets each flag by its own relation of the unsigned values, or keeps it where the machine does not clear
(R134, D4). -/
theorem compareFlags_eq (clears : Bool) (a b : Byte) (f : Flags) :
    compareFlags clears a b f =
      { E := decide (a.toNat = b.toNat) || (!clears && f.E),
        L := decide (a.toNat < b.toNat) || (!clears && f.L),
        G := decide (b.toNat < a.toNat) || (!clears && f.G) } := by
  have heq_iff : a = b ↔ a.toNat = b.toNat := BitVec.toNat_inj.symm
  cases clears with
  | true => simp [compareFlags_clearing]
  | false =>
    rcases Nat.lt_trichotomy a.toNat b.toNat with hlt | heq | hgt
    · simp [compareFlags, heq_iff, hlt, Nat.ne_of_lt hlt, Nat.lt_asymm hlt]
    · simp [compareFlags, heq_iff, heq]
    · simp [compareFlags, heq_iff, hgt, Nat.ne_of_gt hgt, Nat.lt_asymm hgt]

/-- Settles O31: the flags by `compareFlags_eq`, and exactly one on a machine that clears by the order's trichotomy. -/
theorem cmpSetsTheFlagsOfTheUnsignedOrder : Obligations.CmpSetsTheFlagsOfTheUnsignedOrder := by
  intro s rA rB hm
  obtain ⟨⟨-, -, -, hcount⟩, -⟩ := OpcodeMap.wf_counts hm
  refine ⟨fun hA hB => ?_, fun hA => exec_of_illegal_first rfl hA s,
    fun hA hB => exec_of_illegal_second rfl hA hB s, rfl⟩
  rw [exec, execCmp, withRegs_legal _ _ _ _ _ hA hB, advance_of_count hcount]
  refine ⟨_, rfl, ?_, fun hclears => ?_⟩
  · rw [compareFlags_eq]
    rfl
  · rw [setPc_fl, setFlags_fl, hclears]
    exact compareFlags_clearing_count _ _ _

/-- Settles O32: one byte appended after the check, and an advance of two. -/
theorem prnEmitsTheRegister : Obligations.PrnEmitsTheRegister := by
  intro s rA hm
  obtain ⟨-, ⟨hcount, -⟩, -⟩ := OpcodeMap.wf_counts hm
  refine ⟨fun hA => ?_, fun hA => exec_of_illegal_first rfl hA s, rfl⟩
  rw [exec, execPrn, withReg_legal _ _ _ _ hA, advance_of_count hcount]
  rfl

/-- PUSH of a legal register (R170). -/
theorem exec_push_legal {rA : Byte} (hA : rA.toNat < 8) (s : State) :
    exec (.push rA) s = .next ((pushed s (s.spDown.readReg ⟨rA.toNat, hA⟩)).advance s.cfg.opcodeMap.push) :=
  withReg_legal _ _ _ _ hA

/-- POP of a legal register (R175). -/
theorem exec_pop_legal {rA : Byte} (hA : rA.toNat < 8) (s : State) :
    exec (.pop rA) s = .next ((popped s ⟨rA.toNat, hA⟩).advance s.cfg.opcodeMap.pop) :=
  withReg_legal _ _ _ _ hA

/-- CALL of a legal register (R190). -/
theorem exec_call_legal {rA : Byte} (hA : rA.toNat < 8) (s : State) :
    exec (.call rA) s = .next ((pushed s (s.pc + 2)).setPc (s.spDown.readReg ⟨rA.toNat, hA⟩)) :=
  withReg_legal _ _ _ _ hA

/-- Settles O33: the push at the old SP less one, and an advance of two. -/
theorem pushStoresAtTheDecrementedSp : Obligations.PushStoresAtTheDecrementedSp := by
  intro s rA hm hmem
  obtain ⟨-, ⟨-, hcount, -⟩, -⟩ := OpcodeMap.wf_counts hm
  refine ⟨fun hA => ⟨_, exec_push_legal hA s, rfl, fun a => ?_, sp_spDown s, ?_, rfl, rfl, rfl, rfl⟩,
    fun hA => exec_of_illegal_first rfl hA s, rfl⟩
  · rw [memRead_advance, memRead_pushed hmem, sp_spDown]
    rfl
  · rw [advance_of_count hcount]
    rfl

/-- Settles O34: the pop, and an advance of two. -/
theorem popLoadsAndIncrementsSp : Obligations.PopLoadsAndIncrementsSp := by
  intro s rA hm
  obtain ⟨-, ⟨-, -, hcount, -⟩, -⟩ := OpcodeMap.wf_counts hm
  refine ⟨fun hA => ?_, fun hA => exec_of_illegal_first rfl hA s, rfl⟩
  rw [exec_pop_legal hA, advance_of_count hcount]
  rfl

/-- Settles O35: the push of the return address, and the jump in place of the advance. -/
theorem callPushesTheReturnAddressAndJumps : Obligations.CallPushesTheReturnAddressAndJumps := by
  intro s rA hm hmem
  refine ⟨fun hA => ⟨_, exec_call_legal hA s, rfl, fun a => ?_, sp_spDown s, rfl, rfl, rfl, rfl, rfl⟩,
    fun hA => exec_of_illegal_first rfl hA s, rfl⟩
  rw [memRead_setPc, memRead_pushed hmem, sp_spDown]

/-- Settles O36: RET has no check, so its effect and its byte are what the definitions compute. -/
theorem retPopsThePc : Obligations.RetPopsThePc := fun _ => ⟨rfl, rfl⟩

/-- Settles O37: the run state and an advance of one. -/
theorem hltHaltsPastItsByte : Obligations.HltHaltsPastItsByte := by
  intro s hm
  obtain ⟨-, -, -, hcount⟩ := OpcodeMap.wf_counts hm
  rw [exec, execHlt, advance_of_count hcount]
  exact ⟨rfl, rfl⟩

end Sys2Proof.Machine

/-! The laws of the stack and of calls (44_stack.md rule R180, 45_call_return.md rule R200), and what a store leaves for
the next fetch (20_memory.md rule R62). -/

namespace Sys2Proof.Machine

/-- The step up undoes the step down of a push: every register is as before. -/
theorem spUp_pushed_x (s : State) (v : Byte) : (pushed s v).spUp.x = s.x := by
  refine x_ext (s := (pushed s v).spUp) fun r => ?_
  rw [readReg_spUp, sp_pushed, readReg_pushed, readReg_spDown, BitVec.sub_add_cancel]
  split
  · next h => rw [State.sp, h]
  · rfl

/-- A register after a pop: SP one up from what the register write left, the register the popped byte, others as before. -/
theorem readReg_popped (s : State) (r q : RegIdx) :
    (popped s r).readReg q =
      if spReg = q then (if r = spReg then s.memRead s.sp else s.sp) + 1
      else if r = q then s.memRead s.sp else s.readReg q := by
  rw [popped, readReg_spUp, State.sp, readReg_writeReg, readReg_writeReg]
  rfl

/-- A push and then a pop: the register popped into holds the pushed byte, or that byte one up for R7 (D16), and every
other is as before. -/
theorem readReg_popped_pushed {s : State} (hm : Memory.wf s.mem = true) (op v : Byte) (r q : RegIdx) :
    (popped ((pushed s v).advance op) r).readReg q =
      if spReg = q then (if r = spReg then v + 1 else s.sp) else if r = q then v else s.readReg q := by
  have hsp : ((pushed s v).advance op).sp = s.sp - 1 := sp_pushed s v
  have htop : ((pushed s v).advance op).memRead (s.sp - 1) = v := (memRead_pushed hm v _).trans (if_pos rfl)
  rw [readReg_popped, hsp, htop, readReg_advance, readReg_pushed, readReg_spDown]
  split
  · split
    · rfl
    · exact BitVec.sub_add_cancel _ _
  · rfl

/-- The byte 7 is the one that names the stack pointer (R22). -/
theorem spReg_eq_iff {b : Byte} (h : b.toNat < 8) : spReg = ⟨b.toNat, h⟩ ↔ b = 7 := by
  rw [Fin.ext_iff, eq_comm]
  exact BitVec.toNat_inj (y := 7)

/-- Settles O44: the pop finds the byte of the register itself, for R7 the decremented SP, which goes one up again. -/
theorem pushThenPopRestores : Obligations.PushThenPopRestores := by
  intro s rA hA hm
  refine ⟨_, _, exec_push_legal hA s, exec_pop_legal hA _, x_ext (t := s) fun q => ?_, ?_⟩
  · generalize (⟨rA.toNat, hA⟩ : RegIdx) = a
    rw [readReg_advance, readReg_popped_pushed hm, readReg_spDown]
    by_cases hq : spReg = q
    · rw [if_pos hq, ← hq]
      by_cases ha : a = spReg
      · rw [if_pos ha, if_pos ha.symm, BitVec.sub_add_cancel]
        rfl
      · rw [if_neg ha]
        rfl
    · rw [if_neg hq]
      by_cases ha : a = q
      · rw [if_pos ha, ha, if_neg hq]
      · rw [if_neg ha]
  · rw [memRead_advance, memRead_popped, memRead_advance, memRead_pushed hm, if_pos rfl, readReg_spDown]
    exact if_congr (spReg_eq_iff hA) rfl rfl

/-- Settles O45: between two registers other than R7 the pushed byte is the source's and SP comes back. -/
theorem pushThenPopCopies : Obligations.PushThenPopCopies := by
  intro s rA rB hA hB hm
  have hA8 : rA.toNat < 8 := by omega
  have hB8 : rB.toNat < 8 := by omega
  have hA7 : spReg ≠ ⟨rA.toNat, hA8⟩ := fun h => by simp [(spReg_eq_iff hA8).mp h] at hA
  have hB7 : spReg ≠ ⟨rB.toNat, hB8⟩ := fun h => by simp [(spReg_eq_iff hB8).mp h] at hB
  refine ⟨_, _, exec_push_legal hA8 s, exec_pop_legal hB8 _,
    x_ext (t := s.writeReg ⟨rB.toNat, hB8⟩ (s.readReg ⟨rA.toNat, hA8⟩)) fun q => ?_⟩
  rw [readReg_advance, readReg_popped_pushed hm, readReg_spDown, readReg_writeReg, if_neg hA7, if_neg hB7.symm]
  by_cases hq : spReg = q
  · rw [if_pos hq, ← hq, if_neg hB7.symm]
    rfl
  · rw [if_neg hq]

/-- What is read decides what is fetched: three bytes from the PC up. -/
theorem fetch_eq_of_reads {t : State} {read : Byte → Byte} (h : ∀ a, t.memRead a = read a) :
    t.fetch = { op := read t.pc, opA := read (t.pc + 1), opB := read (t.pc + 2) } := by
  rw [State.fetch, h, h, h]

/-- Settles O27: the step is the instruction's effect with the latched byte, and the fetch reads what its store left. -/
theorem storesKeepLatchedOperandsAndReachTheNextFetch : Obligations.StoresKeepLatchedOperandsAndReachTheNextFetch := by
  intro s h hrun hm hmem
  constructor
  · intro hop
    have hstep := step_of_fetched (i := .push _) hrun hm hop ⟨[s.memRead (s.pc + 2)], rfl⟩
    obtain ⟨hlegal, -, -⟩ := pushStoresAtTheDecrementedSp s (s.memRead (s.pc + 1)) hm hmem
    obtain ⟨t, he, -, hread, -, hpc, -⟩ := hlegal h
    rw [sp_spDown] at hread
    exact ⟨t, _, hstep.trans he, hpc, rfl, hread, fetch_eq_of_reads hread⟩
  · intro hop
    have hstep := step_of_fetched (i := .call _) hrun hm hop ⟨[s.memRead (s.pc + 2)], rfl⟩
    obtain ⟨hlegal, -, -⟩ := callPushesTheReturnAddressAndJumps s (s.memRead (s.pc + 1)) hm hmem
    obtain ⟨t, he, -, hread, -, hpc, -⟩ := hlegal h
    rw [sp_spDown] at hread
    exact ⟨t, hstep.trans he, hpc, hread, fetch_eq_of_reads hread⟩

/-- Settles O46: RET finds the return address on top of the stack, and its step up undoes CALL's step down. -/
theorem callThenReturnResumes : Obligations.CallThenReturnResumes := by
  intro s s1 hrun hm hmem hop hA hstep hret
  rw [step_of_fetched (i := .call _) hrun hm hop ⟨[s.memRead (s.pc + 2)], rfl⟩, exec_call_legal hA] at hstep
  injection hstep with hs1
  subst hs1
  have hreturn := step_of_fetched (i := .ret) (s := (pushed s (s.pc + 2)).setPc _) hrun hm hret ⟨[_, _], rfl⟩
  have hread := memRead_pushed hmem (s.pc + 2)
  refine ⟨_, hreturn.trans rfl, hrun, ?_, spUp_pushed_x s (s.pc + 2), rfl, rfl, hread⟩
  calc (pushed s (s.pc + 2)).memRead (pushed s (s.pc + 2)).sp
      = (pushed s (s.pc + 2)).memRead (s.sp - 1) := by rw [sp_pushed]
    _ = s.pc + 2 := (hread _).trans (if_pos rfl)

end Sys2Proof.Machine

/-! Reset, `init()`, `load` and what the host reads (10_state.md rules R35 and R36, 20_memory.md rule R58,
43_print.md rule R160, 70_reset_and_hazards.md rules R260 and R265). -/

namespace Sys2Proof.Machine

/-- The registers `init()` leaves: SP at 0xF4, every other 0x00 (R35). -/
theorem readReg_reset : ∀ r : RegIdx, State.reset.readReg r = if r = 7 then 0xF4 else 0x00 := by decide

/-- Settles O1: the fields of `State.reset`, whose memory lists no cell. -/
theorem resetLeavesEveryInitValue : Obligations.ResetLeavesEveryInitValue := by
  refine ⟨fun _ => rfl, fun r hr => ?_, rfl, rfl, rfl, rfl, fun r => ?_, rfl⟩
  · rw [readReg_reset, if_neg (by rintro rfl; exact absurd hr (by decide))]
  · simp [State.reset]

/-- Settles O2: `init()` is `State.reset` with the machine's parameters, and step and load need another run state. -/
theorem initAloneLeavesTheStoppedStates : Obligations.InitAloneLeavesTheStoppedStates := by
  refine ⟨fun s => ⟨s.init, rfl, fun _ => rfl, readReg_reset, rfl, rfl, rfl, rfl, rfl⟩, fun s t tr hs h => ?_⟩
  obtain ⟨hnoStep, hnoLoad, -⟩ := stoppedCoreTakesNoStep s hs
  cases tr with
  | init => rfl
  | load bytes => exact absurd h (hnoLoad bytes t)
  | step => exact absurd h (hnoStep t)

/-- Settles O4: the run state is asked first, then the length. -/
theorem loadIsRefusedOutsideItsConditions : Obligations.LoadIsRefusedOutsideItsConditions := by
  intro s bytes
  refine ⟨fun hrun => ?_, fun hrun hlong => ?_, fun hrun hlen => ⟨_, load_legal s bytes hrun hlen, rfl⟩⟩
  · cases h : s.run with
    | awaitingLoad => exact absurd h hrun
    | running | halted | faulted => simp only [State.load, h]
  · simp only [State.load, hrun, if_neg (Nat.not_le.mpr hlong)]

/-- A step keeps the parameters: an effect does, and a fault. -/
theorem step_cfg {s t : State} (h : step s = .next t) : t.cfg = s.cfg := by
  obtain ⟨-, ⟨i, -, -, rfl⟩ | ⟨i, b, -, -, rfl⟩ | ⟨-, rfl⟩⟩ := step_next_cases h
  · exact effect_cfg i s
  · rfl
  · rfl

/-- Settles O43: none of the three transactions writes the parameters. -/
theorem parametersNeverChange : Obligations.ParametersNeverChange := by
  intro s t tr h
  cases tr with
  | init =>
    cases h
    rfl
  | load bytes =>
    obtain ⟨-, -, rfl⟩ := load_next h
    rfl
  | step => exact step_cfg h

/-- Settles O47: the dump by the run state. -/
theorem dumpIsGivenAfterTheStop : Obligations.DumpIsGivenAfterTheStop := by
  refine fun s => ⟨?_, ?_⟩
  · rintro (h | ⟨r, h⟩) <;> simp only [State.dump, h]
  · rintro (h | h) <;> simp only [State.dump, h]

/-- The exit status after Halted (D19). -/
theorem exitStatus_of_halted {s : State} (h : s.run = .halted) : s.exitStatus = some 0 := by
  simp only [State.exitStatus, h]

/-- The exit status after Faulted is a successor, whatever the free value (D19). -/
theorem exitStatus_of_faulted {s : State} {r : FaultRecord} (h : s.run = .faulted r) :
    ∃ n, s.exitStatus = some n ∧ n ≠ 0 := by
  simp only [State.exitStatus, h]
  exact ⟨_, rfl, Nat.succ_ne_zero _⟩

/-- What the diagnostic names for each cause (R229). -/
theorem diagnostic_names (r : FaultRecord) : r.diagnostic.opcode = r.opcode ∧ r.diagnostic.pc = r.pc ∧
    (r.cause = .illegalRegister → r.diagnostic.operand = some r.info) := by
  cases h : r.cause <;> simp [FaultRecord.diagnostic, h]

/-- Settles O49: the exit status by the run state, and the diagnostic by the cause. -/
theorem exitStatusTellsHaltFromFault : Obligations.ExitStatusTellsHaltFromFault := by
  refine fun s => ⟨exitStatus_of_halted, fun r h => ?_, ?_⟩
  · obtain ⟨n, hstatus, hne⟩ := exitStatus_of_faulted h
    exact ⟨n, hstatus, hne, diagnostic_names r⟩
  · rintro (h | h) <;> simp only [State.exitStatus, h]

/-- The digits read back to the number. -/
theorem decimalDigits_value (b : Byte) : (decimalDigits b).foldl (fun n d => 10 * n + d) 0 = b.toNat := by
  unfold decimalDigits
  split
  · simp
  · split <;> simp only [List.foldl_cons, List.foldl_nil] <;> omega

/-- A byte has at most three digits, the first of three at most 2. -/
theorem decimalDigits_lt (b : Byte) : ∀ d ∈ decimalDigits b, d < 10 := by
  have hb := b.isLt
  unfold decimalDigits
  split
  · simpa
  · split <;> simp only [List.mem_cons, List.not_mem_nil, or_false] <;> rintro d (rfl | rfl | rfl) <;> omega

/-- No leading zero: each length is taken only from the number that needs it. -/
theorem decimalDigits_no_leading_zero (b : Byte) : (decimalDigits b).length = 1 ∨
    (1 < (decimalDigits b).length ∧ (decimalDigits b).head? ≠ some 0) := by
  unfold decimalDigits
  split
  · exact .inl rfl
  · refine .inr ?_
    split <;> simp <;> omega

/-- Settles O48: line `k` is the digits of byte `k`. -/
theorem outputLinesAreUnsignedDecimal : Obligations.OutputLinesAreUnsignedDecimal := by
  refine ⟨fun s => ⟨List.length_map _, fun k hk => ?_⟩, fun s hout => ?_⟩
  · refine ⟨decimalDigits s.out[k], ?_, decimalDigits_value _, decimalDigits_lt _, decimalDigits_no_leading_zero _⟩
    rw [State.outputLines, List.getElem?_map, List.getElem?_eq_getElem hk, Option.map_some]
  · rw [State.outputLines, hout]
    rfl

end Sys2Proof.Machine

/-! Canonical memory is the 256 bytes it reads as (20_memory.md rule R50, log 13). -/

namespace Sys2Proof.Machine

/-- No memory reads like a canonical one and lists only addresses above its head: the head's byte is not the unlisted
one. -/
theorem Memory.head_not_below {k : Nat} {v : Byte} {m n : Memory} (hm : Memory.wf ((k, v) :: m) = true)
    (hread : ∀ a < 256, Memory.read ((k, v) :: m) a = Memory.read n a) (hbelow : ∀ p ∈ n, k < p.1) : False := by
  obtain ⟨-, hcells⟩ := (Memory.wf_iff _).mp hm
  obtain ⟨hk, hv⟩ := hcells (k, v) (.head _)
  have hhead := hread k hk
  rw [Memory.read_below n k hbelow, Memory.read, if_pos rfl] at hhead
  exact hv hhead

/-- The tail of a canonical memory is canonical. -/
theorem Memory.wf_tail {p : Host.Cell} {m : Memory} (h : Memory.wf (p :: m) = true) : Memory.wf m = true := by
  obtain ⟨hrising, hcells⟩ := (Memory.wf_iff _).mp h
  exact (Memory.wf_iff m).mpr ⟨(List.pairwise_cons.mp hrising).2, fun q hq => hcells q (.tail _ hq)⟩

/-- Every listed address of a canonical memory is at least the head's. -/
theorem Memory.below_of_lt_head {k a : Nat} {v : Byte} {m : Memory} (h : Memory.wf ((k, v) :: m) = true) (ha : a < k) :
    ∀ p ∈ (k, v) :: m, a < p.1 := by
  obtain ⟨hrising, -⟩ := (Memory.wf_iff _).mp h
  intro p hp
  rcases List.mem_cons.mp hp with rfl | hp
  · exact ha
  · exact ha.trans ((List.pairwise_cons.mp hrising).1 p hp)

/-- EXTENSIONALITY of canonical memory, along both lists: heads of different address would read differently at the lower
one, and past equal heads the tails read the same. -/
theorem Memory.ext_of_wf : ∀ {m n : Memory}, Memory.wf m = true → Memory.wf n = true →
    (∀ a < 256, Memory.read m a = Memory.read n a) → m = n
  | [], [], _, _, _ => rfl
  | [], (_, _) :: _, _, hn, hread => (Memory.head_not_below hn (fun a ha => (hread a ha).symm) (by simp)).elim
  | (_, _) :: _, [], hm, _, hread => (Memory.head_not_below hm hread (by simp)).elim
  | (k, v) :: m, (l, w) :: n, hm, hn, hread => by
    rcases Nat.lt_trichotomy k l with hlt | rfl | hgt
    · exact (Memory.head_not_below hm hread (Memory.below_of_lt_head hn hlt)).elim
    · have hk : k < 256 := (((Memory.wf_iff _).mp hm).2 (k, v) (.head _)).1
      have hhead : v = w := by simpa [Memory.read] using hread k hk
      have htail : m = n := Memory.ext_of_wf (Memory.wf_tail hm) (Memory.wf_tail hn) fun a ha => by
        by_cases hka : k = a
        · rw [← hka, Memory.read_head_tail ((Memory.wf_iff _).mp hm).1, Memory.read_head_tail ((Memory.wf_iff _).mp hn).1]
        · simpa [Memory.read, hka] using hread a ha
      rw [hhead, htail]
    · exact (Memory.head_not_below hn (fun a ha => (hread a ha).symm) (Memory.below_of_lt_head hm hgt)).elim

/-- Settles O26: every address below 256 is a byte's. -/
theorem canonicalMemoryIsItsReads : Obligations.CanonicalMemoryIsItsReads := by
  intro m n hm hn hread
  refine Memory.ext_of_wf hm hn fun a ha => ?_
  have hbyte := hread (BitVec.ofNat 8 a)
  rwa [BitVec.toNat_ofNat, Nat.mod_eq_of_lt ha] at hbyte

end Sys2Proof.Machine

/-! The invariant (10_state.md rules R26, R33 and R35): each transaction keeps each of its parts. -/

namespace Sys2Proof.Machine

/-- A step never leads back to the wait for `load` (R260). -/
theorem step_run_ne_awaitingLoad {s t : State} (h : step s = .next t) : t.run ≠ .awaitingLoad := by
  obtain ⟨hrun, ⟨i, -, -, rfl⟩ | ⟨i, b, -, -, rfl⟩ | ⟨-, rfl⟩⟩ := step_next_cases h
  · rw [effect_run_of_running hrun]
    split <;> simp
  · simp
  · simp

/-- The record condition asks nothing of a core that has not faulted. -/
theorem recordOk_of_not_faulted {s : State} (h : ∀ r, s.run ≠ .faulted r) : s.recordOk = true := by
  cases hrun : s.run with
  | faulted r => exact absurd hrun (h r)
  | running | halted | awaitingLoad => simp only [State.recordOk, hrun]

/-- The launch condition asks nothing of a core that does not wait for `load`. -/
theorem launchOk_of_not_awaitingLoad {s : State} (h : s.run ≠ .awaitingLoad) : s.launchOk = true := by
  cases hrun : s.run with
  | awaitingLoad => exact absurd hrun h
  | running | halted | faulted => simp only [State.launchOk, hrun]

/-- The flag condition depends on the flags and the parameters alone. -/
theorem flagsOk_congr {s t : State} (hfl : t.fl = s.fl) (hcfg : t.cfg = s.cfg) : t.flagsOk = s.flagsOk := by
  simp only [State.flagsOk, hfl, hcfg]

/-- A comparison on a machine that clears leaves one flag, by the trichotomy of the unsigned order. -/
theorem flagsOk_setFlags_compareFlags (s : State) (a b : Byte) :
    (s.setFlags (compareFlags s.cfg.cmpClearsFlags a b s.fl)).flagsOk = true := by
  cases hclears : s.cfg.cmpClearsFlags with
  | false => simp [State.flagsOk, hclears]
  | true =>
    simp only [State.flagsOk, setFlags_cfg, setFlags_fl, hclears, compareFlags_clearing]
    rcases Nat.lt_trichotomy a.toNat b.toNat with h | h | h
    · simp [h.ne, h.le]
    · simp [h]
    · simp [h.ne', h.le]

/-- An effect keeps the flag condition: CMP establishes it, and no other instruction touches the flags. -/
theorem effect_flagsOk {i : Instr} {s : State} (hwf : i.wf = true) (h : s.flagsOk = true) :
    (effect i s).flagsOk = true := by
  by_cases hcmp : ∃ a b, i = .cmp a b
  · obtain ⟨a, b, rfl⟩ := hcmp
    exact flagsOk_setFlags_compareFlags s _ _
  · have hfl := exec_keeps_flags (fun a b hi => hcmp ⟨a, b, hi⟩) (exec_of_wf hwf s)
    rw [flagsOk_congr hfl (effect_cfg i s), h]

/-- An effect keeps memory canonical: it stores at a byte's address, or not at all. -/
theorem effect_mem_wf {s : State} (i : Instr) (h : Memory.wf s.mem = true) : Memory.wf (effect i s).mem = true := by
  rcases effect_mem i s with ⟨hmem, -⟩ | ⟨v, hmem, -⟩
  · rwa [hmem]
  · rw [hmem, memWrite_mem]
    exact Memory.wf_write s.mem h _ s.spDown.sp.isLt v

/-- A register index byte is illegal from 8 up (R83). -/
theorem isRegIndex_of_illegal {b : Byte} (h : 8 ≤ b.toNat) : isRegIndex b = false :=
  decide_eq_false (Nat.not_lt.mpr h)

/-- The record of a step that faulted tells the truth about the state it stopped in (R33): its bytes are the fetched ones,
and which operand it names is `firstIllegal_of_decodes`. -/
theorem recordOk_of_step {s t : State} (h : step s = .next t) : t.recordOk = true := by
  by_cases hfault : ∃ r, t.run = .faulted r
  · obtain ⟨r, hr⟩ := hfault
    obtain ⟨rfl, ⟨i, b, hdec, hb, rfl⟩ | ⟨hop, rfl⟩⟩ := step_faulted h hr
    · obtain ⟨hillegal, ⟨hreg, rfl⟩ | ⟨halu, hA, rfl⟩⟩ := firstIllegal_of_decodes hdec hb
      · have hA := isRegIndex_of_illegal hillegal
        simp_all [State.recordOk]
      · have hA : isRegIndex s.fetch.opA = true := decide_eq_true hA
        have hB := isRegIndex_of_illegal hillegal
        simp_all [State.recordOk]
    · simp_all [State.recordOk]
  · exact recordOk_of_not_faulted fun r hr => hfault ⟨r, hr⟩

/-- Settles O51: an effect keeps the first three parts, a fault writes only the run state, and the last two are the
record's and the run state's. -/
theorem stepKeepsTheInvariant : Obligations.StepKeepsTheInvariant := by
  rintro s t ⟨hmem, hmap, hflags, -, -⟩ h
  have hrecord := recordOk_of_step h
  have hlaunch := launchOk_of_not_awaitingLoad (step_run_ne_awaitingLoad h)
  obtain ⟨-, ⟨i, -, hwf, rfl⟩ | ⟨i, b, -, -, rfl⟩ | ⟨-, rfl⟩⟩ := step_next_cases h
  · exact ⟨effect_mem_wf i hmem, by rwa [effect_cfg], effect_flagsOk hwf hflags, hrecord, hlaunch⟩
  · exact ⟨hmem, hmap, hflags, hrecord, hlaunch⟩
  · exact ⟨hmem, hmap, hflags, hrecord, hlaunch⟩

/-- The state `init()` leaves meets the invariant if the parameters meet R86. -/
theorem init_inv {s : State} (hmap : s.cfg.opcodeMap.wf = true) : s.init.Inv :=
  ⟨Memory.wf_nil, hmap, Bool.or_true _, rfl, beq_self_eq_true s.init⟩

/-- Settles O50: the reset state under any parameters is what `init()` leaves. -/
theorem resetMeetsTheInvariant : Obligations.ResetMeetsTheInvariant :=
  ⟨init_inv (s := State.reset) historicalMap_wf, fun c hc => init_inv (s := { State.reset with cfg := c }) hc⟩

/-- A load keeps the invariant: at most 256 bytes from address 0 keep memory canonical (R57). -/
theorem load_inv {s t : State} {bytes : List Byte} (hs : s.Inv) (h : s.load bytes = .next t) : t.Inv := by
  obtain ⟨hmem, hmap, hflags, -, -⟩ := hs
  obtain ⟨-, hlen, rfl⟩ := load_next h
  exact ⟨Memory.wf_writeFrom bytes s.mem 0 hmem (by omega), hmap, hflags, rfl, rfl⟩

/-- Settles O53: each of the three transactions keeps the invariant. -/
theorem transactionKeepsTheInvariant : Obligations.TransactionKeepsTheInvariant := by
  intro s t tr hs h
  cases tr with
  | init =>
    cases h
    obtain ⟨-, hmap, -⟩ := hs
    exact init_inv hmap
  | load bytes => exact load_inv hs h
  | step => exact stepKeepsTheInvariant s t hs h

/-- A reachable state meets the invariant: the launch does, and every transaction keeps it. -/
theorem Reachable.inv {s : State} (h : Reachable s) : s.Inv := by
  induction h with
  | launch c hc => exact init_inv (s := { State.reset with cfg := c }) hc
  | move s t tr _ htr ih => exact transactionKeepsTheInvariant s t tr ih htr

/-- Settles O52: the invariant by induction, and a Running core's step is a transaction. -/
theorem reachableStatesMeetTheInvariant : Obligations.ReachableStatesMeetTheInvariant := by
  refine fun s hs => ⟨hs.inv, fun hrun => ?_⟩
  obtain ⟨t, ht⟩ := runningCoreAlwaysSteps s hrun
  exact ⟨t, ht, .move s t .step hs ht⟩

end Sys2Proof.Machine

/-! Runs (40_execution_cycle.md rule R120): the fuelled run answers exactly where a state under repeated step has stopped,
so its ends, its observation and the infinite run are facts about `State.after`. -/

namespace Sys2Proof.Machine

/-- A later state of a run is a later state of the run from the next one. -/
theorem after_succ_eq_some_iff {n : Nat} {s t : State} :
    State.after (n + 1) s = some t ↔ ∃ u, step s = .next u ∧ State.after n u = some t := by
  cases h : step s <;> simp [State.after, h]

/-- State `n + 1` of a run is the step of state `n`. -/
theorem after_succ_eq_some_iff_last {n : Nat} {s t : State} :
    State.after (n + 1) s = some t ↔ ∃ u, State.after n s = some u ∧ step u = .next t := by
  simp [after_add n 1 s, Option.bind_eq_some_iff, after_succ_eq_some_iff]

/-- A core that steps has not stopped. -/
theorem stopped_eq_false_of_step {s t : State} (h : step s = .next t) : s.stopped = false := by
  obtain ⟨hrun, -⟩ := step_next h
  simp only [State.stopped, hrun]

/-- A stopped core has no step (R118). -/
theorem step_ne_next_of_stopped {s : State} (h : s.stopped = true) (t : State) : step s ≠ .next t := fun hstep => by
  rw [stopped_eq_false_of_step hstep] at h
  cases h

/-- The run of a stopped core is that core. -/
theorem after_of_stopped {n : Nat} {s t : State} (hs : s.stopped = true) (h : State.after n s = some t) : n = 0 := by
  cases n with
  | zero => rfl
  | succ n =>
    obtain ⟨u, hstep, -⟩ := after_succ_eq_some_iff.mp h
    exact absurd hstep (step_ne_next_of_stopped hs u)

/-- Where the run reaches a stopped core, enough fuel observes it. -/
theorem runWithFuel_of_after {n fuel : Nat} {s t : State} (h : State.after n s = some t) (ht : t.stopped = true)
    (hn : n ≤ fuel) : runWithFuel fuel s = some t.observe := by
  induction n generalizing s fuel with
  | zero =>
    cases h
    exact runWithFuel_stopped ht fuel
  | succ n ih =>
    obtain ⟨u, hstep, hafter⟩ := after_succ_eq_some_iff.mp h
    obtain ⟨fuel, rfl⟩ : ∃ k, fuel = k + 1 := ⟨fuel - 1, by omega⟩
    rw [runWithFuel_step (stopped_eq_false_of_step hstep) hstep]
    exact ih hafter (by omega)

/-- What a fuelled run observes is a stopped core that the run reaches within the fuel. -/
theorem after_of_runWithFuel {fuel : Nat} {s : State} {o : Observation} (h : runWithFuel fuel s = some o) :
    ∃ n t, n ≤ fuel ∧ State.after n s = some t ∧ t.stopped = true ∧ o = t.observe := by
  induction fuel generalizing s with
  | zero =>
    cases hs : s.stopped with
    | true => exact ⟨0, s, le_rfl, rfl, hs, by simpa [runWithFuel, hs] using h.symm⟩
    | false => simp [runWithFuel, hs] at h
  | succ fuel ih =>
    cases hs : s.stopped with
    | true => exact ⟨0, s, Nat.zero_le _, rfl, hs, by simpa [runWithFuel, hs] using h.symm⟩
    | false =>
      cases hstep : step s with
      | next u =>
        rw [runWithFuel_step hs hstep] at h
        obtain ⟨n, t, hn, hafter, ht, ho⟩ := ih h
        exact ⟨n + 1, t, by omega, after_succ_eq_some_iff.mpr ⟨u, hstep, hafter⟩, ht, ho⟩
      | fault _ | refused _ => simp [runWithFuel, hs, hstep] at h

/-- A run that has left the wait for `load` does not come back to it. -/
theorem after_run_ne_awaitingLoad {n : Nat} {s t : State} (hs : s.run ≠ .awaitingLoad) (h : State.after n s = some t) :
    t.run ≠ .awaitingLoad := by
  cases n with
  | zero =>
    cases h
    exact hs
  | succ n =>
    obtain ⟨u, -, hstep⟩ := after_succ_eq_some_iff_last.mp h
    exact step_run_ne_awaitingLoad hstep

/-- A launched core is Running (R58, R263). -/
theorem launch_run {c : Config} {bytes : List Byte} {s : State} (h : launch c bytes = .next s) : s.run = .running := by
  obtain ⟨-, -, rfl⟩ := load_next h
  rfl

/-- Settles O54: state `n` of the run is the launched state under `n` steps. -/
theorem runIsTheStatesUnderRepeatedStep : Obligations.RunIsTheStatesUnderRepeatedStep := by
  intro c bytes s h
  have hrun := launch_run h
  have hstate (n : Nat) : runState c bytes n = State.after n s := by simp only [runState, h]
  refine ⟨hstate 0, hrun, fun n t ht => ?_⟩
  rw [hstate] at ht ⊢
  refine ⟨fun t' hstep => after_succ_eq_some_iff_last.mpr ⟨t, ht, hstep⟩, fun hstopped => ?_, ?_⟩
  · refine Option.eq_none_iff_forall_ne_some.mpr fun t' ht' => ?_
    obtain ⟨u, hu, hstep⟩ := after_succ_eq_some_iff_last.mp ht'
    obtain rfl : t = u := Option.some.inj (ht.symm.trans hu)
    exact step_ne_next_of_stopped ((stopped_iff t).mpr hstopped) t' hstep
  · have hleft := after_run_ne_awaitingLoad (by rw [hrun]; simp) ht
    cases hr : t.run <;> simp_all

/-- A run that never reaches a stopped core is infinite: a core that neither waits nor has stopped is Running, and a
Running core steps (R117). -/
theorem runsForever_of_never_stopped {s : State} (hrun : s.run = .running)
    (h : ∀ n t, State.after n s = some t → t.stopped = false) : RunsForever s := by
  intro n
  induction n with
  | zero => exact ⟨s, rfl, hrun⟩
  | succ n ih =>
    obtain ⟨t, ht, htrun⟩ := ih
    obtain ⟨u, hu⟩ := runningCoreAlwaysSteps t htrun
    have hafter := after_succ_eq_some_iff_last.mpr ⟨t, ht, hu⟩
    have hstopped := h _ u hafter
    have hleft := step_run_ne_awaitingLoad hu
    refine ⟨u, hafter, ?_⟩
    cases hr : u.run <;> simp_all [State.stopped]

/-- Settles O55: the run reaches a stopped core or it does not. -/
theorem everyRunEndsOrIsInfinite : Obligations.EveryRunEndsOrIsInfinite := by
  refine fun s hrun => ⟨?_, fun ⟨⟨fuel, o, hends⟩, hforever⟩ => ?_⟩
  · by_cases hstops : ∃ n t, State.after n s = some t ∧ t.stopped = true
    · obtain ⟨n, t, ht, hstopped⟩ := hstops
      exact .inl ⟨n, t.observe, runWithFuel_of_after ht hstopped le_rfl⟩
    · refine .inr (runsForever_of_never_stopped hrun fun n t ht => ?_)
      exact Bool.eq_false_iff.mpr fun hstopped => hstops ⟨n, t, ht, hstopped⟩
  · obtain ⟨n, t, -, ht, hstopped, -⟩ := after_of_runWithFuel hends
    obtain ⟨u, hu, hurun⟩ := hforever n
    obtain rfl : t = u := Option.some.inj (ht.symm.trans hu)
    simp [State.stopped, hurun] at hstopped

/-- A step keeps the output emitted before it, on the faulted path too (R31). -/
theorem out_begins_of_step {s t : State} (h : step s = .next t) : s.out <+: t.out := by
  obtain ⟨-, ⟨i, -, -, rfl⟩ | ⟨i, b, -, -, rfl⟩ | ⟨-, rfl⟩⟩ := step_next_cases h
  · exact ⟨emitted i s, (effect_out i s).symm⟩
  · exact List.prefix_rfl
  · exact List.prefix_rfl

/-- A run keeps the output emitted before it. -/
theorem out_begins_of_after {n : Nat} {s t : State} (h : State.after n s = some t) : s.out <+: t.out := by
  induction n generalizing s with
  | zero =>
    cases h
    exact List.prefix_rfl
  | succ n ih =>
    obtain ⟨u, hstep, hafter⟩ := after_succ_eq_some_iff.mp h
    exact (out_begins_of_step hstep).trans (ih hafter)

/-- Every state of a run that ends lies on the way to its end. -/
theorem exists_after_of_stopped {m n : Nat} {s t u : State} (ht : State.after n s = some t) (hstopped : t.stopped = true)
    (hu : State.after m s = some u) : ∃ k, State.after k u = some t := by
  rcases Nat.le_total m n with hmn | hnm
  · obtain ⟨k, rfl⟩ := Nat.exists_eq_add_of_le hmn
    rw [after_add, hu] at ht
    exact ⟨k, ht⟩
  · obtain ⟨k, rfl⟩ := Nat.exists_eq_add_of_le hnm
    rw [after_add, ht, Option.bind_some] at hu
    obtain rfl := after_of_stopped hstopped hu
    exact ⟨0, hu.symm⟩

/-- The two ends of a run and their exit statuses (R120, D19). -/
theorem exitStatus_of_stopped {s : State} (h : s.stopped = true) :
    (s.run = .halted ∧ s.exitStatus = some 0) ∨
      ((∃ r, s.run = .faulted r) ∧ ∃ code, s.exitStatus = some code ∧ code ≠ 0) := by
  rcases (stopped_iff s).mp h with hhalted | ⟨r, hfaulted⟩
  · exact .inl ⟨hhalted, exitStatus_of_halted hhalted⟩
  · exact .inr ⟨⟨r, hfaulted⟩, exitStatus_of_faulted hfaulted⟩

/-- Settles O56: the observed state is the stopped core the run reaches, and every other state lies before it. -/
theorem runEndsHaltedOrFaultedWithItsOutput : Obligations.RunEndsHaltedOrFaultedWithItsOutput := by
  intro fuel s o h
  obtain ⟨n, t, hn, ht, hstopped, rfl⟩ := after_of_runWithFuel h
  refine ⟨⟨n, hn, ht⟩, exitStatus_of_stopped hstopped, rfl, fun more hmore => ?_, fun m u hu => ?_⟩
  · exact runWithFuel_of_after ht hstopped (hn.trans hmore)
  · obtain ⟨k, hk⟩ := exists_after_of_stopped ht hstopped hu
    exact out_begins_of_after hk

end Sys2Proof.Machine
